-- ==== Sys2Proof/Word.lean ====
section
/-! DEFINITION. The widths of the machine (00_scope.md R5): every value is an unsigned integer of a stated width (R6). -/

namespace Sys2Proof

/-- A byte: a general register, a timer, `SP`, a memory cell (R20, R29, R31, R60). -/
abbrev Byte := BitVec 8

/-- A 16-bit value: an instruction word, `I`, `PC`, a stack slot (R80, R27, R23, R28). -/
abbrev Word := BitVec 16

/-- The 12-bit address field of an instruction (R85). -/
abbrev Addr := BitVec 12

/-- The index of a general register, 0x0 to 0xF (R20). -/
abbrev RegIdx := Fin 16

/-- One of the sixteen CHIP-8 key values (R35). -/
abbrev Key := Fin 16

/-- `FLAG_REG`: register `VF` (R5, R22). -/
abbrev flagReg : RegIdx := 15

end Sys2Proof
end

