-- ==== Sys2Proof/Syntax.lean ====
section
/-! DEFINITION. The instructions: one constructor per row of spec/opcode_table.json (30_encoding.md R86). -/

namespace Sys2Proof

/-- The 34 instructions. Register fields are indices, `kk` an immediate byte, `addr` a 12-bit address, `n` a sprite
height (R81, R85). The rows 5xy0 and 9xy0 keep the low nibble they ignore (R89), so that no bit of a word is lost. -/
inductive Instr where
  /-- 00E0 (R100) -/
  | cls
  /-- 00EE (R101) -/
  | ret
  /-- 1nnn (R110) -/
  | jp (addr : Addr)
  /-- 2nnn (R111) -/
  | call (addr : Addr)
  /-- 3xkk (R120) -/
  | seByte (x : RegIdx) (kk : Byte)
  /-- 4xkk (R121) -/
  | sneByte (x : RegIdx) (kk : Byte)
  /-- 5xyN (R122): `n` is decoded and ignored -/
  | seReg (x y : RegIdx) (n : BitVec 4)
  /-- 6xkk (R130) -/
  | ldByte (x : RegIdx) (kk : Byte)
  /-- 7xkk (R131) -/
  | addByte (x : RegIdx) (kk : Byte)
  /-- 8xy0 (R142) -/
  | ldReg (x y : RegIdx)
  /-- 8xy1 (R143) -/
  | orReg (x y : RegIdx)
  /-- 8xy2 (R144) -/
  | andReg (x y : RegIdx)
  /-- 8xy3 (R145) -/
  | xorReg (x y : RegIdx)
  /-- 8xy4 (R146) -/
  | addReg (x y : RegIdx)
  /-- 8xy5 (R147) -/
  | sub (x y : RegIdx)
  /-- 8xy6 (R148) -/
  | shr (x y : RegIdx)
  /-- 8xy7 (R149) -/
  | subn (x y : RegIdx)
  /-- 8xyE (R150) -/
  | shl (x y : RegIdx)
  /-- 9xyN (R123): `n` is decoded and ignored -/
  | sneReg (x y : RegIdx) (n : BitVec 4)
  /-- Annn (R132) -/
  | ldI (addr : Addr)
  /-- Bnnn (R112) -/
  | jpV0 (addr : Addr)
  /-- Cxkk (R133) -/
  | rnd (x : RegIdx) (kk : Byte)
  /-- Dxyn (R160) -/
  | drw (x y : RegIdx) (n : Fin 16)
  /-- Ex9E (R124) -/
  | skp (x : RegIdx)
  /-- ExA1 (R125) -/
  | sknp (x : RegIdx)
  /-- Fx07 (R170) -/
  | ldVxDT (x : RegIdx)
  /-- Fx0A (R171) -/
  | ldVxK (x : RegIdx)
  /-- Fx15 (R172) -/
  | ldDTVx (x : RegIdx)
  /-- Fx18 (R173) -/
  | ldSTVx (x : RegIdx)
  /-- Fx1E (R174) -/
  | addI (x : RegIdx)
  /-- Fx29 (R175) -/
  | ldF (x : RegIdx)
  /-- Fx33 (R176) -/
  | ldB (x : RegIdx)
  /-- Fx55 (R177) -/
  | storeRegs (x : RegIdx)
  /-- Fx65 (R178) -/
  | loadRegs (x : RegIdx)
  deriving DecidableEq, Repr

end Sys2Proof
end

