-- ==== Sys2Proof/Decode.lean ====
section
/-! DEFINITION. The block `chip8_instruction_decoder` (30_encoding.md): the fields of a word, the decoder, total over all
65,536 words, and the encoder. -/

namespace Sys2Proof

/-! Fields of a word (R81). -/

/-- `op`, bits 15 to 12: the family. -/
def opField (w : Word) : BitVec 4 := w.extractLsb' 12 4

/-- `x`, bits 11 to 8: the first register. -/
def xField (w : Word) : RegIdx := (w.extractLsb' 8 4).toFin

/-- `y`, bits 7 to 4: the second register. -/
def yField (w : Word) : RegIdx := (w.extractLsb' 4 4).toFin

/-- `n`, bits 3 to 0: a sprite height or a sub-opcode. -/
def nField (w : Word) : BitVec 4 := w.extractLsb' 0 4

/-- `kk`, bits 7 to 0: an immediate byte or a sub-opcode. -/
def kkField (w : Word) : Byte := w.extractLsb' 0 8

/-- `addr`, bits 11 to 0: an address, or the sub-opcode of family 0x0. -/
def addrField (w : Word) : Addr := w.extractLsb' 0 12

/-- The four sub-spaces of unimplemented words, by name (R87). -/
inductive Unimplemented where
  /-- `0nnn`, `nnn` neither 0x0E0 nor 0x0EE (R102) -/
  | family0
  /-- `8xyN`, `N` in 8 to D or F (R151) -/
  | family8
  /-- `Exkk`, `kk` neither 0x9E nor 0xA1 (R126) -/
  | familyE
  /-- `Fxkk`, `kk` none of the nine sub-opcodes (R179) -/
  | familyF
  deriving DecidableEq, Repr

/-- What a word decodes to: an instruction, or a rejection by name (R91). -/
inductive Decoded where
  | instr (i : Instr)
  | unimplemented (u : Unimplemented)
  deriving DecidableEq, Repr

/-- Family 0x0: all 12 low bits are matched (R88). -/
def decodeFamily0 (w : Word) : Decoded :=
  if addrField w = 0x0E0 then .instr .cls
  else if addrField w = 0x0EE then .instr .ret
  else .unimplemented .family0

/-- Family 0x8, keyed by the low nibble (R84). -/
def decodeFamily8 (w : Word) : Decoded :=
  match nField w with
  | 0x0 => .instr (.ldReg (xField w) (yField w))
  | 0x1 => .instr (.orReg (xField w) (yField w))
  | 0x2 => .instr (.andReg (xField w) (yField w))
  | 0x3 => .instr (.xorReg (xField w) (yField w))
  | 0x4 => .instr (.addReg (xField w) (yField w))
  | 0x5 => .instr (.sub (xField w) (yField w))
  | 0x6 => .instr (.shr (xField w) (yField w))
  | 0x7 => .instr (.subn (xField w) (yField w))
  | 0xE => .instr (.shl (xField w) (yField w))
  | _ => .unimplemented .family8

/-- Family 0xE, keyed by the low byte (R84). -/
def decodeFamilyE (w : Word) : Decoded :=
  match kkField w with
  | 0x9E => .instr (.skp (xField w))
  | 0xA1 => .instr (.sknp (xField w))
  | _ => .unimplemented .familyE

/-- Family 0xF, keyed by the low byte (R84). -/
def decodeFamilyF (w : Word) : Decoded :=
  match kkField w with
  | 0x07 => .instr (.ldVxDT (xField w))
  | 0x0A => .instr (.ldVxK (xField w))
  | 0x15 => .instr (.ldDTVx (xField w))
  | 0x18 => .instr (.ldSTVx (xField w))
  | 0x1E => .instr (.addI (xField w))
  | 0x29 => .instr (.ldF (xField w))
  | 0x33 => .instr (.ldB (xField w))
  | 0x55 => .instr (.storeRegs (xField w))
  | 0x65 => .instr (.loadRegs (xField w))
  | _ => .unimplemented .familyF

/-- Dispatch on the top nibble (R83), then each family's own sub-fields (R84, R86). -/
def decode (w : Word) : Decoded :=
  match opField w with
  | 0x0 => decodeFamily0 w
  | 0x1 => .instr (.jp (addrField w))
  | 0x2 => .instr (.call (addrField w))
  | 0x3 => .instr (.seByte (xField w) (kkField w))
  | 0x4 => .instr (.sneByte (xField w) (kkField w))
  | 0x5 => .instr (.seReg (xField w) (yField w) (nField w))
  | 0x6 => .instr (.ldByte (xField w) (kkField w))
  | 0x7 => .instr (.addByte (xField w) (kkField w))
  | 0x8 => decodeFamily8 w
  | 0x9 => .instr (.sneReg (xField w) (yField w) (nField w))
  | 0xA => .instr (.ldI (addrField w))
  | 0xB => .instr (.jpV0 (addrField w))
  | 0xC => .instr (.rnd (xField w) (kkField w))
  | 0xD => .instr (.drw (xField w) (yField w) (nField w).toFin)
  | 0xE => decodeFamilyE w
  | _ => decodeFamilyF w

/-- The word made of two fetched bytes, the first in the high half (20_memory.md R62). -/
def wordOfBytes (first second : Byte) : Word := first ++ second

/-- The first byte of a word in memory order (R62). -/
def firstByte (w : Word) : Byte := w.extractLsb' 8 8

/-- The second byte of a word in memory order (R62). -/
def secondByte (w : Word) : Byte := w.extractLsb' 0 8

/-- The decoder on the two bytes of an instruction (R80: there is no other length). -/
def decodeBytes (first second : Byte) : Decoded := decode (wordOfBytes first second)

/-! The encoder, written from the formats of R82 and the rows of R86. -/

/-- Format ADDR: `op[4]`, `addr[12]`; also FIXED, with `op = 0`. -/
def encAddr (op : BitVec 4) (addr : Addr) : Word := op ++ addr

/-- Format XKK: `op[4]`, `x[4]`, `kk[8]`; also XSUB, with `kk` the sub-opcode. -/
def encXKK (op : BitVec 4) (x : RegIdx) (kk : Byte) : Word := op ++ (BitVec.ofFin x : BitVec 4) ++ kk

/-- Formats XY and XYN: `op[4]`, `x[4]`, `y[4]`, `n[4]`. -/
def encXYN (op : BitVec 4) (x y : RegIdx) (n : BitVec 4) : Word :=
  op ++ (BitVec.ofFin x : BitVec 4) ++ (BitVec.ofFin y : BitVec 4) ++ n

/-- The word of an instruction (R86). -/
def encode : Instr → Word
  | .cls => encAddr 0x0 0x0E0
  | .ret => encAddr 0x0 0x0EE
  | .jp addr => encAddr 0x1 addr
  | .call addr => encAddr 0x2 addr
  | .seByte x kk => encXKK 0x3 x kk
  | .sneByte x kk => encXKK 0x4 x kk
  | .seReg x y n => encXYN 0x5 x y n
  | .ldByte x kk => encXKK 0x6 x kk
  | .addByte x kk => encXKK 0x7 x kk
  | .ldReg x y => encXYN 0x8 x y 0x0
  | .orReg x y => encXYN 0x8 x y 0x1
  | .andReg x y => encXYN 0x8 x y 0x2
  | .xorReg x y => encXYN 0x8 x y 0x3
  | .addReg x y => encXYN 0x8 x y 0x4
  | .sub x y => encXYN 0x8 x y 0x5
  | .shr x y => encXYN 0x8 x y 0x6
  | .subn x y => encXYN 0x8 x y 0x7
  | .shl x y => encXYN 0x8 x y 0xE
  | .sneReg x y n => encXYN 0x9 x y n
  | .ldI addr => encAddr 0xA addr
  | .jpV0 addr => encAddr 0xB addr
  | .rnd x kk => encXKK 0xC x kk
  | .drw x y n => encXYN 0xD x y (BitVec.ofFin n : BitVec 4)
  | .skp x => encXKK 0xE x 0x9E
  | .sknp x => encXKK 0xE x 0xA1
  | .ldVxDT x => encXKK 0xF x 0x07
  | .ldVxK x => encXKK 0xF x 0x0A
  | .ldDTVx x => encXKK 0xF x 0x15
  | .ldSTVx x => encXKK 0xF x 0x18
  | .addI x => encXKK 0xF x 0x1E
  | .ldF x => encXKK 0xF x 0x29
  | .ldB x => encXKK 0xF x 0x33
  | .storeRegs x => encXKK 0xF x 0x55
  | .loadRegs x => encXKK 0xF x 0x65

/-- The `mask` and `match` of an instruction's row in the opcode map: a word `w` is the row's instruction iff
`w & mask == match` (R86). -/
def Instr.row : Instr → Word × Word
  | .cls => (0xFFFF, 0x00E0)
  | .ret => (0xFFFF, 0x00EE)
  | .jp _ => (0xF000, 0x1000)
  | .call _ => (0xF000, 0x2000)
  | .seByte _ _ => (0xF000, 0x3000)
  | .sneByte _ _ => (0xF000, 0x4000)
  | .seReg _ _ _ => (0xF000, 0x5000)
  | .ldByte _ _ => (0xF000, 0x6000)
  | .addByte _ _ => (0xF000, 0x7000)
  | .ldReg _ _ => (0xF00F, 0x8000)
  | .orReg _ _ => (0xF00F, 0x8001)
  | .andReg _ _ => (0xF00F, 0x8002)
  | .xorReg _ _ => (0xF00F, 0x8003)
  | .addReg _ _ => (0xF00F, 0x8004)
  | .sub _ _ => (0xF00F, 0x8005)
  | .shr _ _ => (0xF00F, 0x8006)
  | .subn _ _ => (0xF00F, 0x8007)
  | .shl _ _ => (0xF00F, 0x800E)
  | .sneReg _ _ _ => (0xF000, 0x9000)
  | .ldI _ => (0xF000, 0xA000)
  | .jpV0 _ => (0xF000, 0xB000)
  | .rnd _ _ => (0xF000, 0xC000)
  | .drw _ _ _ => (0xF000, 0xD000)
  | .skp _ => (0xF0FF, 0xE09E)
  | .sknp _ => (0xF0FF, 0xE0A1)
  | .ldVxDT _ => (0xF0FF, 0xF007)
  | .ldVxK _ => (0xF0FF, 0xF00A)
  | .ldDTVx _ => (0xF0FF, 0xF015)
  | .ldSTVx _ => (0xF0FF, 0xF018)
  | .addI _ => (0xF0FF, 0xF01E)
  | .ldF _ => (0xF0FF, 0xF029)
  | .ldB _ => (0xF0FF, 0xF033)
  | .storeRegs _ => (0xF0FF, 0xF055)
  | .loadRegs _ => (0xF0FF, 0xF065)

/-- The instruction word an opcode-table word stands for: its low `nbits` bits, every bit above them 0. -/
def tableWord (nbits w : Nat) : Word := BitVec.ofNat 16 (w % 2 ^ nbits)

/-- The decoder on a word numbered as spec/opcode_table.json numbers it: the word is laid out as its two bytes in memory
order and read back from them. -/
def decodeTableWord (nbits w : Nat) : Option Instr :=
  match decodeBytes (firstByte (tableWord nbits w)) (secondByte (tableWord nbits w)) with
  | .instr i => some i
  | .unimplemented _ => none

end Sys2Proof
end

