-- ==== Sys2Proof/Config.lean ====
section
/-! DEFINITION. What an implementation fixes, and the one free value (00_scope.md R5, R15). -/

namespace Sys2Proof

/-- The open parameters `FONT_BASE` and the font table. They are fixed for a run (R15) and no event changes them.
State carries them as data, so that a claim over all states holds for every admissible value (20_memory.md R68: "A model
should take the table as a configuration value"). -/
structure Config where
  /-- `FONT_BASE`, 0x000 to 0x1B0, so that `FONT_BASE + 80 <= 0x200` (R68). -/
  fontBase : Fin 0x1B1
  /-- The 16 sprites of 5 bytes, top row first (R68). -/
  font : Vector (Vector Byte 5) 16
  deriving DecidableEq, Repr

/-- FREE VALUE (notes/assumptions/4.md). The pseudo-random byte of the `k`-th execution of Cxkk: "any of the 256 values,
under no law, independent of every earlier draw" (43_family_6_7_A_C_load.md R133). It has no body: nothing can evaluate
it, so a claim holds for every sequence of draws. -/
opaque Config.freeByte : Nat → BitVec 8

end Sys2Proof
end

