-- ==== Sys2Proof/Machine/Font.lean ====
section
/-! DEFINITION. The values State.reset gives the open parameters (20_memory.md R68). -/

namespace Sys2Proof.Machine

/-- The spec's default for `FONT_BASE`: 0x000 (R5, R68, decision D16; notes/assumptions/2.md). -/
def defaultFontBase : Fin 0x1B1 := 0x000

/-- The 80 bytes of R68, one row a digit, top row of the sprite first (G2; notes/assumptions/2.md). -/
def standardFont : Vector (Vector Byte 5) 16 := #v[
  #v[0xF0, 0x90, 0x90, 0x90, 0xF0],
  #v[0x20, 0x60, 0x20, 0x20, 0x70],
  #v[0xF0, 0x10, 0xF0, 0x80, 0xF0],
  #v[0xF0, 0x10, 0xF0, 0x10, 0xF0],
  #v[0x90, 0x90, 0xF0, 0x10, 0x10],
  #v[0xF0, 0x80, 0xF0, 0x10, 0xF0],
  #v[0xF0, 0x80, 0xF0, 0x90, 0xF0],
  #v[0xF0, 0x10, 0x20, 0x40, 0x40],
  #v[0xF0, 0x90, 0xF0, 0x90, 0xF0],
  #v[0xF0, 0x90, 0xF0, 0x10, 0xF0],
  #v[0xF0, 0x90, 0xF0, 0x90, 0x90],
  #v[0xE0, 0x90, 0xE0, 0x90, 0xE0],
  #v[0xF0, 0x80, 0x80, 0x80, 0xF0],
  #v[0xE0, 0x90, 0x90, 0x90, 0xE0],
  #v[0xF0, 0x80, 0xF0, 0x80, 0xF0],
  #v[0xF0, 0x80, 0xF0, 0x80, 0x80]]

/-- The configuration State.reset carries. -/
def defaultConfig : Config where
  fontBase := defaultFontBase
  font := standardFont

end Sys2Proof.Machine
end

