-- ==== Sys2Proof/WellFormed.lean ====
section
/-! DEFINITION. The checks on instructions and programs that types do not carry. Register indices, keys, immediates and
addresses are exact types, so every operand value an encoding admits is a term and no other is (30_encoding.md R85, R91). -/

namespace Sys2Proof

/-- The form that has a mnemonic: the ignored low nibble of 5xyN and 9xyN is 0 ("A program should use `N = 0`, the only
form with a mnemonic", R89). The machine runs the other forms too; a program is checked with this. -/
def Instr.wellFormed : Instr → Bool
  | .seReg _ _ n | .sneReg _ _ n => n == 0
  | .cls | .ret | .jp _ | .call _ | .seByte _ _ | .sneByte _ _ | .ldByte _ _ | .addByte _ _ | .ldReg _ _
  | .orReg _ _ | .andReg _ _ | .xorReg _ _ | .addReg _ _ | .sub _ _ | .shr _ _ | .subn _ _ | .shl _ _
  | .ldI _ | .jpV0 _ | .rnd _ _ | .drw _ _ _ | .skp _ | .sknp _ | .ldVxDT _ | .ldVxK _ | .ldDTVx _
  | .ldSTVx _ | .addI _ | .ldF _ | .ldB _ | .storeRegs _ | .loadRegs _ => true

/-- A program the loader takes: at most 3584 bytes, 0x200 to 0xFFF (20_memory.md R66, R72). -/
def programFits (bytes : List Byte) : Bool := bytes.length ≤ 3584

end Sys2Proof
end

