-- ==== Sys2Proof/Machine/State.lean ====
section
/-! DEFINITION. The whole state of the machine as plain data (10_state.md), the reasons a step can stop, and the state
after reset. -/

namespace Sys2Proof.Machine

/-- The six status signals, in the order that gives their codes 0 to 5 (60_exceptions.md R200). -/
inductive Signal where
  /-- the handler finished and the driver adds 2 to `PC` (R201) -/
  | incrementPC
  /-- `PC` was already set by the handler (R202) -/
  | notIncrementPC
  /-- unrecognised sub-opcode (R203) -/
  | notImplemented
  /-- call attempted at full stack (R204) -/
  | stackOverflow
  /-- execution must suspend until a key resolves (R205) -/
  | waitForKeyboard
  /-- raised by no encoding; carried because the source lists it (R206, R90) -/
  | error
  deriving DecidableEq, Repr

/-- The six kinds of event, the only things that change state (00_scope.md R14). -/
inductive HostEvent where
  /-- construction of the machine (70_reset_and_hazards.md R240) -/
  | reset
  /-- copy a program to 0x200 (20_memory.md R72) -/
  | loadProgram (bytes : List Byte)
  /-- one fetch-decode-execute step (60_exceptions.md R207) -/
  | tick
  /-- one timer-decay interval elapsed (R221) -/
  | timerTick
  /-- a key goes down (R216) -/
  | keyPress (k : Key)
  /-- a key goes up (R217) -/
  | keyRelease (k : Key)
  deriving DecidableEq, Repr

/-- Reasons the machine stops with a fault: there are none, so the type is empty. Every memory access succeeds
(20_memory.md R60), every word has an effect (30_encoding.md R91), and the fault signals `NotImplemented` and
`StackOverflow` end a tick without stopping the machine (60_exceptions.md R204, R213, R233); they are next states with
`faultMark` set. An empty type is safe: no step can be claimed to end in a fault. -/
inductive Fault where
  deriving DecidableEq, Repr

/-- Reasons a step is refused. -/
inductive Refusal where
  /-- Raised by an arm of `exec` that has no meaning yet, with the row's mnemonic; no arm raises it. Safe: it stops. -/
  | notModelled (mnemonic : String)
  /-- Raised by the `LoadProgram` event with more than 3584 bytes ("a longer sequence is refused", 20_memory.md R72).
  Safe: it stops. No instruction raises it. -/
  | programTooLong
  deriving DecidableEq, Repr

/-- Memory: the cells that differ from the reset contents, by strictly rising address. -/
abbrev Memory := List Host.Cell

/-- The framebuffer: 32 rows of 64 pixels, `true` is lit (R39). -/
abbrev Screen := Vector (Vector Bool 64) 32

/-- The whole state. The first group is the spec's tuple (10_state.md); the rest is the configuration it names and the
model's own fields. -/
structure State where
  /-- `V[0..15]` (R20) -/
  v : Vector Byte 16
  /-- `I` (R27) -/
  i : Word
  /-- `PC` (R23) -/
  pc : Word
  /-- `SP` (R29) -/
  sp : Byte
  /-- `STACK[0..15]` (R28) -/
  stack : Vector Word 16
  /-- `DT` (R31) -/
  dt : Byte
  /-- `ST` (R32) -/
  st : Byte
  /-- `FB[0..31][0..63]` (R39) -/
  fb : Screen
  /-- `MEM[0..4095]` (R38) -/
  mem : Memory
  /-- `WAIT` (R33): `false` is the driver state Running, `true` WaitingForKey (R215) -/
  waiting : Bool
  /-- `WAIT_REG` (R34) -/
  waitReg : RegIdx
  /-- `KEY[0..15]` (R35) -/
  keys : Vector Bool 16
  /-- `STATUS` (R36) -/
  status : Signal
  /-- `FONT_BASE` and the font table (R5): configuration, changed by nothing -/
  cfg : Config
  /-- MODEL'S OWN: set by any tick that reports a fault signal and never cleared (R36, D8; notes/assumptions/6.md) -/
  faultMark : Bool
  /-- MODEL'S OWN: the free draws taken so far (notes/assumptions/4.md) -/
  draws : Nat
  /-- MODEL'S OWN: the events the host will issue next, oldest first; after them it issues ticks (R14;
  notes/assumptions/5.md) -/
  pending : List HostEvent
  deriving DecidableEq, Repr

/-- The state `Reset` leaves under a configuration (R44). Only `PC` and `SP` are the source's values (R241); the others
are the spec's decision D26 (R242; notes/assumptions/3.md). The font is among the contents of unlisted memory. -/
def State.resetWith (c : Config) : State where
  v := Vector.replicate 16 0
  i := 0
  pc := 0x200
  sp := 0xFF
  stack := Vector.replicate 16 0
  dt := 0
  st := 0
  fb := Vector.replicate 32 (Vector.replicate 64 false)
  mem := []
  waiting := false
  waitReg := 0
  keys := Vector.replicate 16 false
  status := .incrementPC
  cfg := c
  faultMark := false
  draws := 0
  pending := []

/-- The machine right after reset, with the spec's default parameters. -/
def State.reset : State := State.resetWith defaultConfig

end Sys2Proof.Machine
end

