-- ==== Sys2Proof/Machine/Ops.lean ====
section
/-! DEFINITION. The named operations over memory, registers, stack and the end of a tick. -/

namespace Sys2Proof.Machine

/-! ## Memory (20_memory.md) -/

/-- What an unlisted address reads as: the reset contents, that is the font at `FONT_BASE` and 0 elsewhere (R44, R68). -/
def unlisted (c : Config) (a : Nat) : Byte :=
  if h : c.fontBase.val ≤ a ∧ a < c.fontBase.val + 80 then
    (c.font[(a - c.fontBase.val) / 5]'(by omega))[(a - c.fontBase.val) % 5]'(by omega)
  else 0

/-- The byte at a cell: the first entry listed for it, or the reset contents. -/
def Memory.read (c : Config) : Memory → Nat → Byte
  | [], a => unlisted c a
  | cell :: rest, a => if cell.1 = a then cell.2 else Memory.read c rest a

/-- The list without any entry for `a`. -/
def Memory.erase : Memory → Nat → Memory
  | [], _ => []
  | cell :: rest, a => if cell.1 = a then Memory.erase rest a else cell :: Memory.erase rest a

/-- The list with an entry for `a` put before the first higher address. -/
def Memory.insert : Memory → Nat → Byte → Memory
  | [], a, b => [(a, b)]
  | cell :: rest, a, b => if a < cell.1 then (a, b) :: cell :: rest else cell :: Memory.insert rest a b

/-- Store a byte. Storing what an unlisted address reads as removes the entry, so that equal memories are equal lists. -/
def Memory.write (c : Config) (m : Memory) (a : Nat) (b : Byte) : Memory :=
  if b = unlisted c a then Memory.erase m a else Memory.insert (Memory.erase m a) a b

/-- The canonical form: strictly rising addresses below 4096, none listed at the value it would read as unlisted. -/
abbrev Memory.wf (c : Config) (m : Memory) : Prop :=
  m.Pairwise (fun p q => p.1 < q.1) ∧ ∀ cell ∈ m, cell.1 < 4096 ∧ cell.2 ≠ unlisted c cell.1

/-- "addresses wrap to 12 bits on every access" (R60). -/
def memIndex (a : Word) : Nat := a.toNat % 4096

/-- `MemRead(a, 1)` (R10). -/
def State.readByte (s : State) (a : Word) : Byte := Memory.read s.cfg s.mem (memIndex a)

/-- `MemWrite(a, 1, b)` (R10). -/
def State.writeByte (s : State) (a : Word) (b : Byte) : State :=
  { s with mem := Memory.write s.cfg s.mem (memIndex a) b }

/-- The `n` bytes from `a` upwards, each at the next address mod 4096 (R10, R64). -/
def State.loadBytes (s : State) (a : Word) (n : Nat) : List Byte :=
  (List.range n).map fun k => s.readByte (a + BitVec.ofNat 16 k)

/-- One-byte writes in ascending address order from `a` (R10, R64). -/
def State.storeBytes (s : State) (a : Word) : List Byte → State
  | [] => s
  | b :: bs => (s.writeByte a b).storeBytes (a + 1) bs

/-! ## Registers (10_state.md R20 to R22) -/

/-- `V[x]`. -/
def State.reg (s : State) (x : RegIdx) : Byte := s.v[x.val]

/-- `V[x] <- b`. All sixteen registers are written the same way, `VF` included (R22). -/
def State.setReg (s : State) (x : RegIdx) (b : Byte) : State := { s with v := s.v.set x.val b x.isLt }

/-- Write bytes into `V[k]`, `V[k + 1]` and so on, ascending (R64). -/
def State.setRegsFrom (s : State) (k : Nat) : List Byte → State
  | [] => s
  | b :: bs => (s.setReg (Fin.ofNat 16 k) b).setRegsFrom (k + 1) bs

/-- `V[0]` to `V[x]` inclusive (R177). -/
def State.regsUpTo (s : State) (x : RegIdx) : List Byte := s.v.toList.take (x.val + 1)

/-! ## The call stack (10_state.md R28, R29) -/

/-- The slot a stack pointer selects: `SP mod 16` (R28, C4). -/
def slotOf (sp : Byte) : Fin 16 := Fin.ofNat 16 sp.toNat

/-- Stack slot `j`. -/
def State.slot (s : State) (j : Fin 16) : Word := s.stack[j.val]

/-- One more frame would exceed the capacity: the incremented `SP` would be above 0x0F (R111, D4). -/
def State.stackFull (s : State) : Bool := 0x0F < (s.sp + 1).toNat

/-- Increment `SP`, then write the slot it selects (R29, C1). -/
def State.push (s : State) (w : Word) : State :=
  { s with sp := s.sp + 1, stack := s.stack.set (slotOf (s.sp + 1)).val w (slotOf (s.sp + 1)).isLt }

/-- The word in the slot `SP` selects (R29). -/
def State.top (s : State) : Word := s.slot (slotOf s.sp)

/-- Decrement `SP`; the slot keeps its value (R28, R29). -/
def State.drop (s : State) : State := { s with sp := s.sp - 1 }

/-! ## The program counter and the end of a tick (60_exceptions.md R200 to R212) -/

/-- `PC <- a`. -/
def State.setPc (s : State) (a : Word) : State := { s with pc := a }

/-- What the driver adds to `PC` for each signal (R208). -/
def Signal.pcAdvance : Signal → Word
  | .incrementPC | .notImplemented => 2
  | .notIncrementPC | .stackOverflow | .waitForKeyboard | .error => 0

/-- The signals R200 calls faults. -/
def Signal.isFault : Signal → Bool
  | .notImplemented | .stackOverflow | .error => true
  | .incrementPC | .notIncrementPC | .waitForKeyboard => false

/-- The code of a signal (R200, D6). -/
def Signal.code : Signal → BitVec 3
  | .incrementPC => 0
  | .notIncrementPC => 1
  | .notImplemented => 2
  | .stackOverflow => 3
  | .waitForKeyboard => 4
  | .error => 5

/-- The end of a tick, this machine's whole "trap entry" (R212): the driver applies the program-counter policy of the
signal to the state the handler left (R208), reports the signal, and the model's mark records a fault signal. -/
def State.endTick (s : State) (sig : Signal) : State :=
  { s with pc := s.pc + sig.pcAdvance, status := sig, faultMark := s.faultMark || sig.isFault }

/-- The outcome of a handler that leaves `s` and returns `sig` (R207, R211). -/
def finish (sig : Signal) (s : State) : Host.Outcome State Fault Refusal := .next (s.endTick sig)

/-- The effect of an unimplemented word: `raise NotImplemented()` and nothing else (R87, R102, R126, R151, R179). -/
def unimplementedWord (_ : Unimplemented) (s : State) : Host.Outcome State Fault Refusal := finish .notImplemented s

/-! ## The keyboard wait (60_exceptions.md R215, R216) -/

/-- Fx0A suspends: latch the pending register (R171). -/
def State.suspend (s : State) (x : RegIdx) : State := { s with waiting := true, waitReg := x }

/-- The resolving key press resumes, the nearest thing this machine has to a return (R213): the key's value goes to the
pending register, the latch clears and `PC` passes the Fx0A (R216). `WAIT_REG` is not cleared (R34). -/
def State.resume (s : State) (k : Key) : State :=
  let t := s.setReg s.waitReg (BitVec.ofNat 8 k.val)
  { t with waiting := false, pc := t.pc + 2 }

/-- `KEY[k]` (R218). -/
def State.keyDown (s : State) (k : Key) : Bool := s.keys[k.val]

/-- `KEY[k] <- b` (R35). -/
def State.setKey (s : State) (k : Key) (b : Bool) : State := { s with keys := s.keys.set k.val b k.isLt }

end Sys2Proof.Machine
end

