-- ==== Sys2Proof/Machine/Flags.lean ====
section
/-! DEFINITION. The flag computations (10_state.md R26; 44_family_8_alu.md R140, R141). -/

namespace Sys2Proof.Machine

/-- `b2i(c)` (00_scope.md R8): a flag value is exactly 0x00 or 0x01 (R26). -/
def flagByte (c : Bool) : Byte := if c then 1 else 0

/-- Carry of `a + b`: the untruncated sum exceeds 255 (R146). -/
def carryOut (a b : Byte) : Bool := 255 < a.toNat + b.toNat

/-- No borrow in `a - b`: `a >= b` (R140, R147, R149). -/
def noBorrow (a b : Byte) : Bool := b.toNat ≤ a.toNat

/-- The bit a right shift moves out: bit 0 (R148). -/
def shiftedOutRight (b : Byte) : Bool := b.getLsbD 0

/-- The bit a left shift moves out: bit 7 (R150). -/
def shiftedOutLeft (b : Byte) : Bool := b.getLsbD 7

/-- Write the result register, then `VF` last, so that the flag remains when the result register is `VF` (R26, R141). -/
def State.setRegFlag (s : State) (d : RegIdx) (result : Byte) (flag : Bool) : State :=
  (s.setReg d result).setReg flagReg (flagByte flag)

end Sys2Proof.Machine
end

