-- ==== Sys2Proof/Machine/Alu.lean ====
section
/-! DEFINITION. Family 0x8: the register-register operations (44_family_8_alu.md). -/

namespace Sys2Proof.Machine

/-- 8xy0: copy (R142). -/
def execLdReg (x y : RegIdx) (s : State) : Host.Outcome State Fault Refusal :=
  finish .incrementPC (s.setReg x (s.reg y))

/-- 8xy1: OR, no flag (R143; notes/assumptions/14.md). -/
def execOrReg (x y : RegIdx) (s : State) : Host.Outcome State Fault Refusal :=
  finish .incrementPC (s.setReg x (s.reg x ||| s.reg y))

/-- 8xy2: AND, no flag (R144; notes/assumptions/14.md). -/
def execAndReg (x y : RegIdx) (s : State) : Host.Outcome State Fault Refusal :=
  finish .incrementPC (s.setReg x (s.reg x &&& s.reg y))

/-- 8xy3: XOR, no flag (R145; notes/assumptions/14.md). -/
def execXorReg (x y : RegIdx) (s : State) : Host.Outcome State Fault Refusal :=
  finish .incrementPC (s.setReg x (s.reg x ^^^ s.reg y))

/-- 8xy4: add, `VF` = carry out (R146). -/
def execAddReg (x y : RegIdx) (s : State) : Host.Outcome State Fault Refusal :=
  finish .incrementPC (s.setRegFlag x (s.reg x + s.reg y) (carryOut (s.reg x) (s.reg y)))

/-- 8xy5: `V[x] - V[y]` into `V[x]`, `VF` = no borrow (R147). -/
def execSub (x y : RegIdx) (s : State) : Host.Outcome State Fault Refusal :=
  finish .incrementPC (s.setRegFlag x (s.reg x - s.reg y) (noBorrow (s.reg x) (s.reg y)))

/-- 8xy6: `V[y]` shifted right by one into `V[x]`, `VF` = bit out (R148). -/
def execShr (x y : RegIdx) (s : State) : Host.Outcome State Fault Refusal :=
  finish .incrementPC (s.setRegFlag x (s.reg y >>> 1) (shiftedOutRight (s.reg y)))

/-- 8xy7: `V[y] - V[x]` into `V[y]`, not `V[x]`; `VF` = no borrow (R149, C7). -/
def execSubn (x y : RegIdx) (s : State) : Host.Outcome State Fault Refusal :=
  finish .incrementPC (s.setRegFlag y (s.reg y - s.reg x) (noBorrow (s.reg y) (s.reg x)))

/-- 8xyE: `V[y]` shifted left by one into `V[x]`, `VF` = bit out (R150). -/
def execShl (x y : RegIdx) (s : State) : Host.Outcome State Fault Refusal :=
  finish .incrementPC (s.setRegFlag x (s.reg y <<< 1) (shiftedOutLeft (s.reg y)))

end Sys2Proof.Machine
end

