-- ==== Sys2Proof/Machine/Operands.lean ====
section
/-! DEFINITION. The operand forms: what an instruction reads before it writes anything (44_family_8_alu.md R141). -/

namespace Sys2Proof.Machine

/-- The key a register's value names: `V[x] mod 16` (42_family_3_4_5_9_E_skip.md R124, D21). -/
def State.namedKey (s : State) (x : RegIdx) : Key := Fin.ofNat 16 (s.reg x).toNat

/-- The start column of a draw: `V[x] mod 64` (45_family_D_draw.md R160). -/
def State.startCol (s : State) (x : RegIdx) : Nat := (s.reg x).toNat % 64

/-- The start row of a draw: `V[y] mod 32` (R160). -/
def State.startRow (s : State) (y : RegIdx) : Nat := (s.reg y).toNat % 32

/-- A 12-bit address as a 16-bit value: zero-extended, absolute, in bytes (30_encoding.md R85). -/
def wordOfAddr (addr : Addr) : Word := addr.setWidth 16

/-- A byte added to a 16-bit value is zero-extended, never sign-extended (46_family_F_misc.md R174). -/
def wordOfByte (b : Byte) : Word := b.setWidth 16

/-- The address of the font sprite for a value: `FONT_BASE + 5 * value`, the whole 8-bit value (R175, D17). -/
def State.spriteAddr (s : State) (b : Byte) : Word := BitVec.ofNat 16 (s.cfg.fontBase.val + 5 * b.toNat)

/-- Hundreds, tens and ones of a byte, each a binary byte (R176). -/
def bcdDigits (b : Byte) : List Byte :=
  [BitVec.ofNat 8 (b.toNat / 100), BitVec.ofNat 8 (b.toNat / 10 % 10), BitVec.ofNat 8 (b.toNat % 10)]

end Sys2Proof.Machine
end

