-- ==== Sys2Proof/Machine/Screen.lean ====
section
/-! DEFINITION. The block `chip8_framebuffer_array` (10_state.md R39; 45_family_D_draw.md R160): the pixel port, the clear
and the sprite draw, written as the loops of R160. -/

namespace Sys2Proof.Machine

/-- `FB[r][c]`. -/
def Screen.pixel (fb : Screen) (r : Fin 32) (c : Fin 64) : Bool := (fb[r.val])[c.val]

/-- `FB[r][c] <- FB[r][c] ^ 1`. -/
def Screen.toggle (fb : Screen) (r : Fin 32) (c : Fin 64) : Screen :=
  fb.set r.val ((fb[r.val]).set c.val (!Screen.pixel fb r c) c.isLt) r.isLt

/-- All pixels off (R100). -/
def Screen.blank : Screen := Vector.replicate 32 (Vector.replicate 64 false)

/-- A draw under way: the framebuffer so far, and whether a lit pixel has been turned off. -/
structure DrawState where
  fb : Screen
  hit : Bool
  deriving DecidableEq, Repr

/-- One sprite bit at one pixel: a 1 toggles the pixel and records a hit if it was lit; a 0 does nothing (R160). -/
def drawBit (b : Bool) (r : Fin 32) (c : Fin 64) (d : DrawState) : DrawState :=
  if b then { fb := Screen.toggle d.fb r c, hit := d.hit || Screen.pixel d.fb r c } else d

/-- Bits `c` to 7 of one sprite row, `n` of them left: bit `7 - c` of the byte goes to column `(x0 + c) mod 64` (R160). -/
def drawBits (byte : Byte) (r : Fin 32) (x0 : Nat) : Nat → Nat → DrawState → DrawState
  | 0, _, d => d
  | n + 1, c, d => drawBits byte r x0 n (c + 1) (drawBit (byte.getLsbD (7 - c)) r (Fin.ofNat 64 (x0 + c)) d)

/-- One sprite row: the columns 0 to 7. -/
def drawRow (byte : Byte) (r : Fin 32) (x0 : Nat) (d : DrawState) : DrawState := drawBits byte r x0 8 0 d

/-- The rows of a sprite, the first at row `y0 mod 32` and each next one row lower, rows wrapping (R160). -/
def drawRows (x0 : Nat) : List Byte → Nat → DrawState → DrawState
  | [], _, d => d
  | b :: bs, y, d => drawRows x0 bs (y + 1) (drawRow b (Fin.ofNat 32 y) x0 d)

/-- The whole draw of Dxyn before `VF` is written: coordinates and sprite bytes are read first (R160). -/
def State.drawSprite (s : State) (x y : RegIdx) (n : Nat) : DrawState :=
  drawRows (s.startCol x) (s.loadBytes s.i n) (s.startRow y) { fb := s.fb, hit := false }

/-- The display's read port (60_exceptions.md R226). -/
def State.pixel (s : State) (r : Fin 32) (c : Fin 64) : Bool := Screen.pixel s.fb r c

end Sys2Proof.Machine
end

