-- ==== Sys2Proof/Machine/Draw.lean ====
section
/-! DEFINITION. Family 0xD: the sprite draw (45_family_D_draw.md). -/

namespace Sys2Proof.Machine

/-- Dxyn: XOR the sprite into the framebuffer, then `VF` = collision, written once after all pixels (R160). -/
def execDrw (x y : RegIdx) (n : Fin 16) (s : State) : Host.Outcome State Fault Refusal :=
  finish .incrementPC
    (({ s with fb := (s.drawSprite x y n.val).fb }).setReg flagReg (flagByte (s.drawSprite x y n.val).hit))

end Sys2Proof.Machine
end

