-- ==== Sys2Proof/Machine/Family0.lean ====
section
/-! DEFINITION. Family 0x0: CLS and RET (40_family_0_cls_ret.md). -/

namespace Sys2Proof.Machine

/-- 00E0, clear the framebuffer (R100). -/
def execCls (s : State) : Host.Outcome State Fault Refusal :=
  finish .incrementPC { s with fb := Screen.blank }

/-- 00EE, return from a call: read the slot, decrement `SP`; the driver's 2 passes the call (R101). An empty stack is not
checked: the masked slot is read and `SP` becomes 0xFE (R101 corner case b; notes/assumptions/7.md). -/
def execRet (s : State) : Host.Outcome State Fault Refusal :=
  finish .incrementPC ((s.setPc s.top).drop)

end Sys2Proof.Machine
end

