-- ==== Sys2Proof/Machine/Jumps.lean ====
section
/-! DEFINITION. Families 0x1, 0x2 and 0xB: jump and call (41_family_1_2_B_jump_call.md). -/

namespace Sys2Proof.Machine

/-- 1nnn: `PC <- addr - 2`, so that the driver's 2 lands at `addr` (R110). -/
def execJp (addr : Addr) (s : State) : Host.Outcome State Fault Refusal :=
  finish .incrementPC (s.setPc (wordOfAddr addr - 2))

/-- 2nnn: push the address of the call itself and go to `addr`, or report `StackOverflow` and change nothing (R111). -/
def execCall (addr : Addr) (s : State) : Host.Outcome State Fault Refusal :=
  if s.stackFull then finish .stackOverflow s
  else finish .notIncrementPC ((s.push s.pc).setPc (wordOfAddr addr))

/-- Bnnn: `PC <- addr + V[0] - 2`, not reduced to 12 bits (R112). -/
def execJpV0 (addr : Addr) (s : State) : Host.Outcome State Fault Refusal :=
  finish .incrementPC (s.setPc (wordOfAddr addr + wordOfByte (s.reg 0) - 2))

end Sys2Proof.Machine
end

