-- ==== Sys2Proof/Machine/Loads.lean ====
section
/-! DEFINITION. Families 0x6, 0x7, 0xA and 0xC: immediate loads, add and random (43_family_6_7_A_C_load.md). -/

namespace Sys2Proof.Machine

/-- 6xkk: `V[x] <- kk` (R130). -/
def execLdByte (x : RegIdx) (kk : Byte) (s : State) : Host.Outcome State Fault Refusal :=
  finish .incrementPC (s.setReg x kk)

/-- 7xkk: `V[x] <- V[x] + kk` mod 256, no flag (R131). -/
def execAddByte (x : RegIdx) (kk : Byte) (s : State) : Host.Outcome State Fault Refusal :=
  finish .incrementPC (s.setReg x (s.reg x + kk))

/-- Annn: `I <- addr` (R132). -/
def execLdI (addr : Addr) (s : State) : Host.Outcome State Fault Refusal :=
  finish .incrementPC { s with i := wordOfAddr addr }

/-- Cxkk: `V[x] <- r & kk`, `r` the next free draw (R133; notes/assumptions/4.md). -/
def execRnd (x : RegIdx) (kk : Byte) (s : State) : Host.Outcome State Fault Refusal :=
  finish .incrementPC (({ s with draws := s.draws + 1 }).setReg x (Config.freeByte s.draws &&& kk))

end Sys2Proof.Machine
end

