-- ==== Sys2Proof/Machine/Misc.lean ====
section
/-! DEFINITION. Family 0xF: timers, key wait, index, font, BCD, block store and load (46_family_F_misc.md). -/

namespace Sys2Proof.Machine

/-- Fx07: `V[x] <- DT` (R170). -/
def execLdVxDT (x : RegIdx) (s : State) : Host.Outcome State Fault Refusal :=
  finish .incrementPC (s.setReg x s.dt)

/-- Fx0A: set the keyboard-wait latch and suspend; the completion is the resolving key press (R171, R216). -/
def execLdVxK (x : RegIdx) (s : State) : Host.Outcome State Fault Refusal :=
  finish .waitForKeyboard (s.suspend x)

/-- Fx15: `DT <- V[x]` (R172). -/
def execLdDTVx (x : RegIdx) (s : State) : Host.Outcome State Fault Refusal :=
  finish .incrementPC { s with dt := s.reg x }

/-- Fx18: `ST <- V[x]` (R173). -/
def execLdSTVx (x : RegIdx) (s : State) : Host.Outcome State Fault Refusal :=
  finish .incrementPC { s with st := s.reg x }

/-- Fx1E: `I <- I + V[x]` mod 65536, no flag (R174). -/
def execAddI (x : RegIdx) (s : State) : Host.Outcome State Fault Refusal :=
  finish .incrementPC { s with i := s.i + wordOfByte (s.reg x) }

/-- Fx29: `I <- FONT_BASE + 5 * V[x]` (R175). -/
def execLdF (x : RegIdx) (s : State) : Host.Outcome State Fault Refusal :=
  finish .incrementPC { s with i := s.spriteAddr (s.reg x) }

/-- Fx33: the decimal digits of `V[x]` to `I`, `I + 1`, `I + 2` (R176). -/
def execLdB (x : RegIdx) (s : State) : Host.Outcome State Fault Refusal :=
  finish .incrementPC (s.storeBytes s.i (bcdDigits (s.reg x)))

/-- Fx55: `V[0]` to `V[x]` to memory from `I`; `I` unchanged (R177; notes/assumptions/21.md). -/
def execStoreRegs (x : RegIdx) (s : State) : Host.Outcome State Fault Refusal :=
  finish .incrementPC (s.storeBytes s.i (s.regsUpTo x))

/-- Fx65: `V[0]` to `V[x]` from memory at `I`; `I` unchanged (R178; notes/assumptions/21.md). -/
def execLoadRegs (x : RegIdx) (s : State) : Host.Outcome State Fault Refusal :=
  finish .incrementPC (s.setRegsFrom 0 (s.loadBytes s.i (x.val + 1)))

end Sys2Proof.Machine
end

