-- ==== Sys2Proof/Machine/Skips.lean ====
section
/-! DEFINITION. Families 0x3, 0x4, 0x5, 0x9 and 0xE: the conditional skips (42_family_3_4_5_9_E_skip.md). -/

namespace Sys2Proof.Machine

/-- The skip convention: an extra 2 if the condition holds, `IncrementPC` regardless (R119). -/
def skipIf (cond : Bool) (s : State) : Host.Outcome State Fault Refusal :=
  finish .incrementPC (if cond then s.setPc (s.pc + 2) else s)

/-- 3xkk (R120). -/
def execSeByte (x : RegIdx) (kk : Byte) (s : State) : Host.Outcome State Fault Refusal :=
  skipIf (s.reg x == kk) s

/-- 4xkk (R121). -/
def execSneByte (x : RegIdx) (kk : Byte) (s : State) : Host.Outcome State Fault Refusal :=
  skipIf (s.reg x != kk) s

/-- 5xyN, `N` ignored (R122, R89; notes/assumptions/8.md). -/
def execSeReg (x y : RegIdx) (s : State) : Host.Outcome State Fault Refusal :=
  skipIf (s.reg x == s.reg y) s

/-- 9xyN, `N` ignored (R123, R89; notes/assumptions/8.md). -/
def execSneReg (x y : RegIdx) (s : State) : Host.Outcome State Fault Refusal :=
  skipIf (s.reg x != s.reg y) s

/-- Ex9E: skip if the key `V[x]` names is down (R124). -/
def execSkp (x : RegIdx) (s : State) : Host.Outcome State Fault Refusal :=
  skipIf (s.keyDown (s.namedKey x)) s

/-- ExA1: skip if that key is not down (R125). -/
def execSknp (x : RegIdx) (s : State) : Host.Outcome State Fault Refusal :=
  skipIf (!s.keyDown (s.namedKey x)) s

end Sys2Proof.Machine
end

