-- ==== Sys2Proof/Machine/Events.lean ====
section
/-! DEFINITION. The six kinds of event (00_scope.md R14): the tick driver, the timer decay, the key events, the program
load and reset. -/

namespace Sys2Proof.Machine

/-! ## Tick (60_exceptions.md R207) -/

/-- The fetched word: the bytes at `PC` and `PC + 1`, the first in the high half (20_memory.md R61, R62). -/
def State.fetchWord (s : State) : Word := wordOfBytes (s.readByte s.pc) (s.readByte (s.pc + 1))

/-- What the bytes at `PC` decode to. -/
def State.fetched (s : State) : Decoded := decodeBytes (s.readByte s.pc) (s.readByte (s.pc + 1))

/-- The handler of a decoded word and the driver's policy after it (R207). -/
def runDecoded (d : Decoded) (s : State) : Host.Outcome State Fault Refusal :=
  match d with
  | .instr i => exec i s
  | .unimplemented u => unimplementedWord u s

/-- One `Tick`: while waiting, nothing is fetched and `WaitForKeyboard` is reported again (R209); else fetch, dispatch and
apply the program-counter policy. -/
def tick (s : State) : Host.Outcome State Fault Refusal :=
  if s.waiting then finish .waitForKeyboard s else runDecoded s.fetched s

/-! ## TimerTick (R221) -/

/-- Decrement while non-zero; a timer at 0 stays at 0 (R221). -/
def decay (t : Byte) : Byte := if t = 0 then 0 else t - 1

/-- Both timers decay; nothing else changes (R221). -/
def timerTick (s : State) : State := { s with dt := decay s.dt, st := decay s.st }

/-! ## Key events (R216, R217) -/

/-- `KeyPress(k)`: the key goes down, and a waiting machine resumes (R216). -/
def keyPress (k : Key) (s : State) : State :=
  if s.waiting then (s.setKey k true).resume k else s.setKey k true

/-- `KeyRelease(k)`: the key goes up and nothing else (R217). -/
def keyRelease (k : Key) (s : State) : State := s.setKey k false

/-! ## LoadProgram (20_memory.md R72) and Reset (70_reset_and_hazards.md R240) -/

/-- Copy the bytes to 0x200, or refuse more than 3584 of them (R72; notes/assumptions/17.md). -/
def loadProgram (bytes : List Byte) (s : State) : Host.Outcome State Fault Refusal :=
  if programFits bytes then .next (s.storeBytes 0x200 bytes) else .refused .programTooLong

/-- Every piece of the spec's state at its reset value (R240, R44). The configuration, the host's schedule and the model's
counter and mark are not the machine's state and stay (notes/assumptions/23.md). -/
def resetEvent (s : State) : State :=
  { State.resetWith s.cfg with faultMark := s.faultMark, draws := s.draws, pending := s.pending }

/-- One event, atomic (R14). -/
def applyEvent (e : HostEvent) (s : State) : Host.Outcome State Fault Refusal :=
  match e with
  | .reset => .next (resetEvent s)
  | .loadProgram bytes => loadProgram bytes s
  | .tick => tick s
  | .timerTick => .next (timerTick s)
  | .keyPress k => .next (keyPress k s)
  | .keyRelease k => .next (keyRelease k s)

/-- The event the host issues next: the oldest scheduled one, or a tick (notes/assumptions/5.md). -/
def State.nextEvent (s : State) : HostEvent :=
  match s.pending with
  | [] => .tick
  | e :: _ => e

/-- The state with that event taken off the schedule. -/
def State.takeEvent (s : State) : State := { s with pending := s.pending.tail }

/-- The state with a word stored where the next tick fetches, in memory order, and a tick next: nothing scheduled before
it and no keyboard wait (notes/assumptions/24.md). -/
def State.placeWord (s : State) (w : Word) : State :=
  { s.storeBytes s.pc [firstByte w, secondByte w] with waiting := false, pending := [] }

end Sys2Proof.Machine
end

