-- ==== Sys2Proof/Machine/Step.lean ====
section
/-! DEFINITION. One step of the machine: the host's next event. -/

namespace Sys2Proof.Machine

/-- The next event, applied (00_scope.md R14). With nothing scheduled it is a `Tick` (60_exceptions.md R207). -/
def step (s : State) : Host.Outcome State Fault Refusal := applyEvent s.nextEvent s.takeEvent

/-- `s` with an opcode-table word stored where the next step fetches, so that the next step runs exactly it. -/
def State.withFetchWord (s : State) (nbits w : Nat) : State := s.placeWord (tableWord nbits w)

end Sys2Proof.Machine
end

