-- ==== Sys2Proof/Safety.lean ====
section
/-! DEFINITION. What claims call a safe step, the observations of the host, and what an instruction leaves alone. -/

namespace Sys2Proof.Machine

/-! ## Observations (60_exceptions.md R226 to R233) -/

/-- The sounder's one-bit output: `ST != 0` (R228, D33). -/
def State.soundOn (s : State) : Bool := s.st != 0

/-- The customary end of a program: the word at `PC` is `1nnn` with `nnn = PC` (R233, D34). It says nothing of the host,
of the timers or of the keys. -/
def State.programEnded (s : State) : Bool :=
  match s.fetched with
  | .instr (.jp addr) => wordOfAddr addr == s.pc
  | _ => false

/-! ## Safe steps (93_implementation_defined.md) -/

/-- The next event is a tick that fetches. -/
def State.fetchesNext (s : State) : Bool := s.nextEvent == .tick && !s.waiting

/-- The step runs a return with no live frame, the case U1 asks a claim not to rely on. -/
def State.underflowsNext (s : State) : Bool :=
  s.fetchesNext && s.fetched == .instr .ret && s.sp == 0xFF

/-- A safe step: it reports no fault signal (S4, S5, U2, U9, U16), and it is no return on an empty stack (U1). -/
def SafeStep (s : State) : Prop :=
  s.underflowsNext = false ∧ ∃ t, step s = .next t ∧ (s.faultMark = false → t.faultMark = false)

/-! ## Frames (10_state.md R45): what two states agree on -/

/-- Every byte of memory reads the same. -/
def SameMemory (s t : State) : Prop := ∀ a, t.readByte a = s.readByte a

/-- Every general register but those in `p` holds what it held. -/
def RegsKeptBut (p : RegIdx → Prop) (s t : State) : Prop := ∀ r, ¬ p r → t.reg r = s.reg r

/-- The call stack and `SP` are kept. -/
def SameStack (s t : State) : Prop := t.sp = s.sp ∧ t.stack = s.stack

/-- Both timers are kept. -/
def SameTimers (s t : State) : Prop := t.dt = s.dt ∧ t.st = s.st

/-- The keyboard-wait latch is kept. -/
def SameLatch (s t : State) : Prop := t.waiting = s.waiting ∧ t.waitReg = s.waitReg

/-- The keys and the configuration are kept, and the host's schedule with them. -/
def SameHost (s t : State) : Prop := t.keys = s.keys ∧ t.cfg = s.cfg ∧ t.pending = s.pending

/-- The model's own mark and draw counter are kept. -/
def SameMarks (s t : State) : Prop := t.faultMark = s.faultMark ∧ t.draws = s.draws

/-- `PC` is two further on and the tick reported `IncrementPC`. -/
def AdvancedTwo (s t : State) : Prop := t.pc = s.pc + 2 ∧ t.status = .incrementPC

/-- Everything is kept but the general registers, `PC`, `STATUS` and the draw counter. -/
def KeptButRegs (s t : State) : Prop :=
  t.i = s.i ∧ SameStack s t ∧ SameTimers s t ∧ t.fb = s.fb ∧ SameMemory s t ∧ SameLatch s t ∧ SameHost s t ∧
    t.faultMark = s.faultMark

/-- Everything is kept but `PC` and `STATUS`. -/
def KeptButPc (s t : State) : Prop := RegsKeptBut (fun _ => False) s t ∧ KeptButRegs s t ∧ t.draws = s.draws

/-- Everything is kept but `PC`, `STATUS` and `I`. -/
def KeptButIndex (s t : State) : Prop :=
  RegsKeptBut (fun _ => False) s t ∧ SameStack s t ∧ SameTimers s t ∧ t.fb = s.fb ∧ SameMemory s t ∧ SameLatch s t ∧
    SameHost s t ∧ SameMarks s t

/-- Everything is kept but `PC`, `STATUS` and the timers. -/
def KeptButTimers (s t : State) : Prop :=
  RegsKeptBut (fun _ => False) s t ∧ t.i = s.i ∧ SameStack s t ∧ t.fb = s.fb ∧ SameMemory s t ∧ SameLatch s t ∧
    SameHost s t ∧ SameMarks s t

/-- Everything is kept but `PC`, `STATUS`, the general registers and the framebuffer. -/
def KeptButScreen (s t : State) : Prop :=
  t.i = s.i ∧ SameStack s t ∧ SameTimers s t ∧ SameMemory s t ∧ SameLatch s t ∧ SameHost s t ∧ SameMarks s t

/-- Everything is kept but `PC`, `STATUS` and the call stack. -/
def KeptButStack (s t : State) : Prop :=
  RegsKeptBut (fun _ => False) s t ∧ t.i = s.i ∧ SameTimers s t ∧ t.fb = s.fb ∧ SameMemory s t ∧ SameLatch s t ∧
    SameHost s t ∧ SameMarks s t

/-- Everything is kept but `PC`, `STATUS` and memory. -/
def KeptButMemory (s t : State) : Prop :=
  RegsKeptBut (fun _ => False) s t ∧ t.i = s.i ∧ SameStack s t ∧ SameTimers s t ∧ t.fb = s.fb ∧ SameLatch s t ∧
    SameHost s t ∧ SameMarks s t

/-! ## Reset -/

/-- Every piece of the spec's state holds its reset value (R44), with the font of `c` in memory (R68). -/
def HoldsResetValues (c : Config) (t : State) : Prop :=
  t.pc = 0x200 ∧ t.sp = 0xFF ∧ (∀ r, t.reg r = 0) ∧ t.i = 0 ∧ (∀ j, t.slot j = 0) ∧ t.dt = 0 ∧ t.st = 0 ∧
  (∀ r p, t.pixel r p = false) ∧ t.waiting = false ∧ t.waitReg = 0 ∧ (∀ k, t.keyDown k = false) ∧
  t.status = .incrementPC ∧
  (∀ (d : Fin 16) (k : Fin 5), t.readByte (BitVec.ofNat 16 (c.fontBase.val + 5 * d.val + k.val)) = (c.font[d.val])[k.val]) ∧
  ∀ a, memIndex a < c.fontBase.val ∨ c.fontBase.val + 80 ≤ memIndex a → t.readByte a = 0

/-! ## Sprites, runs and invariants -/

/-- The sprite of Dxyn holds a 1 at a pixel: bit `7 - j` of the byte at `I + k`, drawn at row `(V[y] mod 32 + k) mod 32`
and column `(V[x] mod 64 + j) mod 64` (R160). -/
def State.spriteLit (s : State) (x y : RegIdx) (n : Fin 16) (r : Fin 32) (c : Fin 64) : Prop :=
  ∃ k < n.val, ∃ j < 8, r.val = ((s.reg y).toNat % 32 + k) % 32 ∧ c.val = ((s.reg x).toNat % 64 + j) % 64 ∧
    (s.readByte (s.i + BitVec.ofNat 16 k)).getLsbD (7 - j) = true

/-- Instructions run one after another, whatever stands in memory. -/
def execAll : List Instr → State → Host.Outcome State Fault Refusal
  | [], s => .next s
  | i :: is, s =>
    match exec i s with
    | .next t => execAll is t
    | .fault r => .fault r
    | .refused r => .refused r

/-- The memory is in canonical form. -/
def MemoryCanonical (s : State) : Prop := Memory.wf s.cfg s.mem

/-- `SP` is 0xFF or names a slot (R30). -/
def StackInRange (s : State) : Prop := s.sp = 0xFF ∨ s.sp.toNat ≤ 0x0F

/-- A waiting machine last reported `WaitForKeyboard` (R205, R215). -/
def WaitReported (s : State) : Prop := s.waiting = true → s.status = .waitForKeyboard

end Sys2Proof.Machine
end

