-- ==== Sys2Proof/Certificates/Slice0/Obligations.lean ====
section
/-! DEFINITION. The statements for the provers. Each docstring names the rules of spec/ it formalises. Frames follow
10_state.md R45: "everything it does not list is unchanged by that tick". -/

open Sys2Proof Sys2Proof.Machine

/-! ## Families 0x6, 0x7, 0xA, 0xC (43_family_6_7_A_C_load.md) -/

/-- R130: 6xkk. `PC` and the signal as R24. -/
def Obligations.LoadByteWritesRegister : Prop :=
  ∀ (x : RegIdx) (kk : Byte) (s : State), ∃ t, exec (.ldByte x kk) s = .next t ∧
    t.reg x = kk ∧ RegsKeptBut (fun r => r = x) s t ∧ AdvancedTwo s t ∧ KeptButRegs s t ∧ t.draws = s.draws

/-- R131: 7xkk wraps mod 256 and writes no flag: `VF` is kept unless `x` names it. -/
def Obligations.AddByteWrapsWithoutFlag : Prop :=
  ∀ (x : RegIdx) (kk : Byte) (s : State), ∃ t, exec (.addByte x kk) s = .next t ∧
    (t.reg x).toNat = ((s.reg x).toNat + kk.toNat) % 256 ∧ RegsKeptBut (fun r => r = x) s t ∧ AdvancedTwo s t ∧
    KeptButRegs s t ∧ t.draws = s.draws

/-- R132: Annn zero-extends the address into `I`. -/
def Obligations.LoadIndexTakesAddress : Prop :=
  ∀ (addr : Addr) (s : State), ∃ t, exec (.ldI addr) s = .next t ∧
    t.i.toNat = addr.toNat ∧ AdvancedTwo s t ∧ KeptButIndex s t

/-- R133 with decision D24: Cxkk writes a free draw masked by `kk`, so never a bit outside `kk`. The draw is the free value
of notes/assumptions/4.md (the model's form of it): the statement holds for every value of it. -/
def Obligations.RandomByteIsMasked : Prop :=
  ∀ (x : RegIdx) (kk : Byte) (s : State), ∃ t, exec (.rnd x kk) s = .next t ∧
    t.reg x = Config.freeByte s.draws &&& kk ∧ t.reg x &&& ~~~kk = 0 ∧ (t.reg x).toNat ≤ kk.toNat ∧
    t.draws = s.draws + 1 ∧ RegsKeptBut (fun r => r = x) s t ∧ AdvancedTwo s t ∧ KeptButRegs s t

/-! ## Families 0x1, 0x2, 0xB and 00EE (41_family_1_2_B_jump_call.md, 40_family_0_cls_ret.md) -/

/-- R110: the net effect of 1nnn. -/
def Obligations.JumpGoesToAddress : Prop :=
  ∀ (addr : Addr) (s : State), ∃ t, exec (.jp addr) s = .next t ∧
    t.pc.toNat = addr.toNat ∧ t.status = .incrementPC ∧ KeptButPc s t

/-- R112: the net effect of Bnnn; the sum is not reduced to 12 bits. -/
def Obligations.JumpWithOffsetIsNotReduced : Prop :=
  ∀ (addr : Addr) (s : State), ∃ t, exec (.jpV0 addr) s = .next t ∧
    t.pc.toNat = addr.toNat + (s.reg 0).toNat ∧ t.status = .incrementPC ∧ KeptButPc s t

/-- R111 with decisions D2 to D4: a call below capacity increments `SP`, writes the slot it then selects with the address
of the call itself, keeps every other slot and goes to `addr`. -/
def Obligations.CallPushesItsOwnAddress : Prop :=
  ∀ (addr : Addr) (s : State), (s.sp.toNat + 1) % 256 ≤ 0x0F → ∃ t, exec (.call addr) s = .next t ∧
    t.sp.toNat = (s.sp.toNat + 1) % 256 ∧
    (∀ j : Fin 16, t.slot j = if j.val = (s.sp.toNat + 1) % 256 then s.pc else s.slot j) ∧
    t.pc.toNat = addr.toNat ∧ t.status = .notIncrementPC ∧ KeptButStack s t

/-- R111, R204 with decisions D4 and D8: a call at capacity reports `StackOverflow` and changes nothing else; the model's
mark (notes/assumptions/6.md) is set. -/
def Obligations.CallAtCapacityOverflows : Prop :=
  ∀ (addr : Addr) (s : State), 0x0F < (s.sp.toNat + 1) % 256 →
    exec (.call addr) s = .next { s with status := .stackOverflow, faultMark := true }

/-- R101 with decisions D2 and D5: the return reads the slot `SP mod 16`, then decrements `SP` mod 256, on an empty stack
too (notes/assumptions/7.md); every slot keeps its value. -/
def Obligations.ReturnPopsSlot : Prop :=
  ∀ s : State, ∃ t, exec .ret s = .next t ∧
    (∀ j : Fin 16, j.val = s.sp.toNat % 16 → t.pc = s.slot j + 2) ∧ t.sp.toNat = (s.sp.toNat + 255) % 256 ∧
    t.stack = s.stack ∧ t.status = .incrementPC ∧ KeptButStack s t

/-- Q4 of 95_test_vectors.md with R101, R111 (decisions D2, D3): a call, then a return, resumes after the call with the
stack pointer as it was. -/
def Obligations.CallThenReturnResumes : Prop :=
  ∀ (addr : Addr) (s : State), (s.sp.toNat + 1) % 256 ≤ 0x0F → ∃ t, execAll [.call addr, .ret] s = .next t ∧
    t.pc = s.pc + 2 ∧ t.sp = s.sp ∧ (∀ j : Fin 16, j.val ≠ (s.sp.toNat + 1) % 256 → t.slot j = s.slot j) ∧
    KeptButStack s t

/-- Q3 of 95_test_vectors.md with R29, R111: from an empty stack sixteen calls succeed, whatever their targets, and the
seventeenth overflows without touching the stack. -/
def Obligations.SeventeenthCallOverflows : Prop :=
  ∀ (addrs : List Addr) (s : State), s.sp = 0xFF → addrs.length = 16 →
    ∃ t, execAll (addrs.map .call) s = .next t ∧ t.sp = 0x0F ∧ t.status = .notIncrementPC ∧ t.faultMark = s.faultMark ∧
      t.slot 0 = s.pc ∧
      ∀ addr, ∃ u, exec (.call addr) t = .next u ∧ u.status = .stackOverflow ∧ u.pc = t.pc ∧ SameStack t u

/-! ## Families 0x3, 0x4, 0x5, 0x9, 0xE (42_family_3_4_5_9_E_skip.md) -/

/-- R120, R121: the skips on an immediate. -/
def Obligations.SkipComparesImmediate : Prop :=
  ∀ (x : RegIdx) (kk : Byte) (s : State),
    (∃ t, exec (.seByte x kk) s = .next t ∧ t.pc = (if s.reg x = kk then s.pc + 4 else s.pc + 2) ∧
      t.status = .incrementPC ∧ KeptButPc s t) ∧
    (∃ t, exec (.sneByte x kk) s = .next t ∧ t.pc = (if s.reg x = kk then s.pc + 2 else s.pc + 4) ∧
      t.status = .incrementPC ∧ KeptButPc s t)

/-- R122, R123 and R89 with decision D11: the skips on two registers, whatever the low nibble. -/
def Obligations.SkipComparesRegisters : Prop :=
  ∀ (x y : RegIdx) (n : BitVec 4) (s : State),
    (∃ t, exec (.seReg x y n) s = .next t ∧ t.pc = (if s.reg x = s.reg y then s.pc + 4 else s.pc + 2) ∧
      t.status = .incrementPC ∧ KeptButPc s t) ∧
    (∃ t, exec (.sneReg x y n) s = .next t ∧ t.pc = (if s.reg x = s.reg y then s.pc + 2 else s.pc + 4) ∧
      t.status = .incrementPC ∧ KeptButPc s t)

/-- R124, R125 with decision D21: the skips on the key `V[x] mod 16`, whatever the latch. -/
def Obligations.SkipTestsNamedKey : Prop :=
  ∀ (x : RegIdx) (k : Key) (s : State), k.val = (s.reg x).toNat % 16 →
    (∃ t, exec (.skp x) s = .next t ∧ t.pc = (if s.keyDown k = true then s.pc + 4 else s.pc + 2) ∧
      t.status = .incrementPC ∧ KeptButPc s t) ∧
    (∃ t, exec (.sknp x) s = .next t ∧ t.pc = (if s.keyDown k = true then s.pc + 2 else s.pc + 4) ∧
      t.status = .incrementPC ∧ KeptButPc s t)

/-! ## Family 0x8 (44_family_8_alu.md) -/

/-- R142: 8xy0. -/
def Obligations.CopyRegister : Prop :=
  ∀ (x y : RegIdx) (s : State), ∃ t, exec (.ldReg x y) s = .next t ∧
    t.reg x = s.reg y ∧ RegsKeptBut (fun r => r = x) s t ∧ AdvancedTwo s t ∧ KeptButRegs s t ∧ t.draws = s.draws

/-- R143, R144, R145 with decision D12: the logic operations write `V[x]` and no flag. -/
def Obligations.LogicWritesNoFlag : Prop :=
  ∀ (x y : RegIdx) (s : State) (i : Instr) (res : Byte),
    (i = .orReg x y ∧ res = s.reg x ||| s.reg y) ∨ (i = .andReg x y ∧ res = s.reg x &&& s.reg y) ∨
      (i = .xorReg x y ∧ res = s.reg x ^^^ s.reg y) →
    ∃ t, exec i s = .next t ∧ t.reg x = res ∧ RegsKeptBut (fun r => r = x) s t ∧ AdvancedTwo s t ∧ KeptButRegs s t ∧
      t.draws = s.draws

/-- R146: the sum of the values before the instruction; the carry is what `VF` holds afterwards, also when `x` is `F`. -/
def Obligations.AddSetsCarry : Prop :=
  ∀ (x y : RegIdx) (s : State), ∃ t, exec (.addReg x y) s = .next t ∧
    (x ≠ flagReg → (t.reg x).toNat = ((s.reg x).toNat + (s.reg y).toNat) % 256) ∧
    t.reg flagReg = (if 255 < (s.reg x).toNat + (s.reg y).toNat then 1 else 0) ∧
    RegsKeptBut (fun r => r = x ∨ r = flagReg) s t ∧ AdvancedTwo s t ∧ KeptButRegs s t ∧ t.draws = s.draws

/-- R147 with decision D12: `V[x] - V[y]` into `V[x]`, the flag written last. -/
def Obligations.SubSetsNoBorrow : Prop :=
  ∀ (x y : RegIdx) (s : State), ∃ t, exec (.sub x y) s = .next t ∧
    (x ≠ flagReg → (t.reg x).toNat = ((s.reg x).toNat + 256 - (s.reg y).toNat) % 256) ∧
    t.reg flagReg = (if (s.reg y).toNat ≤ (s.reg x).toNat then 1 else 0) ∧
    RegsKeptBut (fun r => r = x ∨ r = flagReg) s t ∧ AdvancedTwo s t ∧ KeptButRegs s t ∧ t.draws = s.draws

/-- R148: the operand is the old `V[y]`. -/
def Obligations.ShiftRightTakesVy : Prop :=
  ∀ (x y : RegIdx) (s : State), ∃ t, exec (.shr x y) s = .next t ∧
    (x ≠ flagReg → (t.reg x).toNat = (s.reg y).toNat / 2) ∧
    (t.reg flagReg).toNat = (s.reg y).toNat % 2 ∧
    RegsKeptBut (fun r => r = x ∨ r = flagReg) s t ∧ AdvancedTwo s t ∧ KeptButRegs s t ∧ t.draws = s.draws

/-- R149: the destination is `V[y]`; `V[x]` is not written (unless `x` is `y` or `F`). -/
def Obligations.SubnWritesVy : Prop :=
  ∀ (x y : RegIdx) (s : State), ∃ t, exec (.subn x y) s = .next t ∧
    (y ≠ flagReg → (t.reg y).toNat = ((s.reg y).toNat + 256 - (s.reg x).toNat) % 256) ∧
    t.reg flagReg = (if (s.reg x).toNat ≤ (s.reg y).toNat then 1 else 0) ∧
    RegsKeptBut (fun r => r = y ∨ r = flagReg) s t ∧ AdvancedTwo s t ∧ KeptButRegs s t ∧ t.draws = s.draws

/-- R150: the operand is the old `V[y]`. -/
def Obligations.ShiftLeftTakesVy : Prop :=
  ∀ (x y : RegIdx) (s : State), ∃ t, exec (.shl x y) s = .next t ∧
    (x ≠ flagReg → (t.reg x).toNat = 2 * (s.reg y).toNat % 256) ∧
    (t.reg flagReg).toNat = (s.reg y).toNat / 128 ∧
    RegsKeptBut (fun r => r = x ∨ r = flagReg) s t ∧ AdvancedTwo s t ∧ KeptButRegs s t ∧ t.draws = s.draws

/-! ## 00E0 and family 0xD (40_family_0_cls_ret.md, 45_family_D_draw.md) -/

/-- R100: every pixel off; `VF` is not written. -/
def Obligations.ClearTurnsEveryPixelOff : Prop :=
  ∀ s : State, ∃ t, exec .cls s = .next t ∧
    (∀ r c, t.pixel r c = false) ∧ RegsKeptBut (fun _ => False) s t ∧ AdvancedTwo s t ∧ KeptButScreen s t

/-- R160 with decision D19 and the bit order of G3 (notes/assumptions/11.md): exactly the pixels where the sprite holds a 1
are inverted, and `VF` says whether a pixel lit before is off after. -/
def Obligations.DrawTogglesSprite : Prop :=
  ∀ (x y : RegIdx) (n : Fin 16) (s : State), ∃ t, exec (.drw x y n) s = .next t ∧
    (∀ r c, s.spriteLit x y n r c → t.pixel r c = !s.pixel r c) ∧
    (∀ r c, ¬ s.spriteLit x y n r c → t.pixel r c = s.pixel r c) ∧
    ((∃ r c, s.pixel r c = true ∧ t.pixel r c = false) → t.reg flagReg = 1) ∧
    ((∀ r c, s.pixel r c = true → t.pixel r c = true) → t.reg flagReg = 0) ∧
    RegsKeptBut (fun r => r = flagReg) s t ∧ AdvancedTwo s t ∧ KeptButScreen s t

/-- R160 corner case e, at coordinates that are not `VF`: drawing the same sprite twice restores the framebuffer, and one
of the two draws reports a collision exactly if the sprite has a 1 bit (see notes/assumptions/25.md for which one). -/
def Obligations.DrawTwiceRestores : Prop :=
  ∀ (x y : RegIdx) (n : Fin 16) (s : State), x ≠ flagReg → y ≠ flagReg →
    ∃ t u, exec (.drw x y n) s = .next t ∧ exec (.drw x y n) t = .next u ∧ (∀ r c, u.pixel r c = s.pixel r c) ∧
      ((t.reg flagReg = 1 ∨ u.reg flagReg = 1) ↔ ∃ r c, s.spriteLit x y n r c)

/-! ## Family 0xF (46_family_F_misc.md) -/

/-- R170, R172, R173: Fx07 reads `DT`, Fx15 sets `DT` and keeps `ST`, Fx18 sets `ST` and keeps `DT`. -/
def Obligations.TimersAreReadAndSet : Prop :=
  ∀ (x : RegIdx) (s : State),
    (∃ t, exec (.ldVxDT x) s = .next t ∧ t.reg x = s.dt ∧ RegsKeptBut (fun r => r = x) s t ∧ AdvancedTwo s t ∧
      KeptButRegs s t ∧ t.draws = s.draws) ∧
    (∃ t, exec (.ldDTVx x) s = .next t ∧ t.dt = s.reg x ∧ t.st = s.st ∧ AdvancedTwo s t ∧ KeptButTimers s t) ∧
    (∃ t, exec (.ldSTVx x) s = .next t ∧ t.st = s.reg x ∧ t.dt = s.dt ∧ AdvancedTwo s t ∧ KeptButTimers s t)

/-- R171 with decision D22: Fx0A latches the register and leaves `PC` and every register. -/
def Obligations.KeyWaitSuspends : Prop :=
  ∀ (x : RegIdx) (s : State), ∃ t, exec (.ldVxK x) s = .next t ∧
    t.waiting = true ∧ t.waitReg = x ∧ t.pc = s.pc ∧ t.status = .waitForKeyboard ∧
    RegsKeptBut (fun _ => False) s t ∧ t.i = s.i ∧ SameStack s t ∧ SameTimers s t ∧ t.fb = s.fb ∧ SameMemory s t ∧
    SameHost s t ∧ SameMarks s t

/-- R174 with decision D14: Fx1E adds mod 65536 and writes no flag. -/
def Obligations.AddToIndexWraps : Prop :=
  ∀ (x : RegIdx) (s : State), ∃ t, exec (.addI x) s = .next t ∧
    t.i.toNat = (s.i.toNat + (s.reg x).toNat) % 65536 ∧ AdvancedTwo s t ∧ KeptButIndex s t

/-- R175 with decision D17: Fx29 points `I` at `FONT_BASE + 5 * V[x]`, for every `FONT_BASE`. -/
def Obligations.IndexPointsAtSprite : Prop :=
  ∀ (x : RegIdx) (s : State), ∃ t, exec (.ldF x) s = .next t ∧
    t.i.toNat = s.cfg.fontBase.val + 5 * (s.reg x).toNat ∧ AdvancedTwo s t ∧ KeptButIndex s t

/-- R176: the three digits, as numbers 0 to 9 that make up the value, at `I`, `I + 1`, `I + 2`; every other byte reads as
before. -/
def Obligations.DecimalDigitsStored : Prop :=
  ∀ (x : RegIdx) (s : State), ∃ t, exec (.ldB x) s = .next t ∧
    (t.readByte s.i).toNat = (s.reg x).toNat / 100 ∧
    (t.readByte (s.i + 1)).toNat = (s.reg x).toNat / 10 % 10 ∧
    (t.readByte (s.i + 2)).toNat = (s.reg x).toNat % 10 ∧
    100 * (t.readByte s.i).toNat + 10 * (t.readByte (s.i + 1)).toNat + (t.readByte (s.i + 2)).toNat = (s.reg x).toNat ∧
    (∀ a, memIndex a ≠ memIndex s.i → memIndex a ≠ memIndex (s.i + 1) → memIndex a ≠ memIndex (s.i + 2) →
      t.readByte a = s.readByte a) ∧
    AdvancedTwo s t ∧ KeptButMemory s t

/-- R177 with decision D18: `V[0]` to `V[x]` stand in memory from `I`, every other byte reads as before, `I` is kept. -/
def Obligations.RegistersStored : Prop :=
  ∀ (x : RegIdx) (s : State), ∃ t, exec (.storeRegs x) s = .next t ∧
    (∀ r ≤ x, t.readByte (s.i + BitVec.ofNat 16 r.val) = s.reg r) ∧
    (∀ a, (∀ r ≤ x, memIndex a ≠ memIndex (s.i + BitVec.ofNat 16 r.val)) → t.readByte a = s.readByte a) ∧
    AdvancedTwo s t ∧ KeptButMemory s t

/-- R178 with decision D18: `V[0]` to `V[x]` are loaded from memory at `I`, the registers above `x`, `I` and memory are
kept. -/
def Obligations.RegistersLoaded : Prop :=
  ∀ (x : RegIdx) (s : State), ∃ t, exec (.loadRegs x) s = .next t ∧
    (∀ r ≤ x, t.reg r = s.readByte (s.i + BitVec.ofNat 16 r.val)) ∧ RegsKeptBut (fun r => r ≤ x) s t ∧
    AdvancedTwo s t ∧ KeptButRegs s t ∧ t.draws = s.draws

/-- Q6 of 95_test_vectors.md with R177, R178: whatever the registers hold in between, Fx55 then Fx65 with the same `x`, `I`
and memory gives back `V[0]` to `V[x]`. -/
def Obligations.StoreThenLoadRestores : Prop :=
  ∀ (x : RegIdx) (s t u : State), exec (.storeRegs x) s = .next t → u.mem = t.mem → u.cfg = t.cfg → u.i = t.i →
    ∃ w, exec (.loadRegs x) u = .next w ∧ ∀ r, w.reg r = if r ≤ x then s.reg r else u.reg r

/-! ## Encoding (30_encoding.md) -/

/-- R82, R85, R86: the decoder gives back every instruction from its word, every operand at every value. -/
def Obligations.DecodeOfEncode : Prop := ∀ i : Instr, decode (encode i) = .instr i

/-- An instruction term's word is the only word that decodes to it: no bit is dropped. For 32 rows this follows from R86;
for 5xyN and 9xyN it is the model's choice to keep the ignored nibble in the term (notes/assumptions/8.md), since by R89
every `5xyN` is the instruction 5xy0 and every `9xyN` is 9xy0. -/
def Obligations.EncodeOfDecode : Prop := ∀ (w : Word) (i : Instr), decode w = .instr i → encode i = w

/-- R86: a word decodes to an instruction of a row exactly if `w & mask == match` for that row, so the rows are disjoint
and order does not matter. -/
def Obligations.DecodeFollowsOpcodeMap : Prop :=
  ∀ (w : Word) (i : Instr), w &&& i.row.1 = i.row.2 ↔ ∃ j, decode w = .instr j ∧ j.row = i.row

/-- R87 with decision D10: the unimplemented words, by family. -/
def Obligations.UnimplementedWordsAreListed : Prop :=
  ∀ w : Word, (∃ u, decode w = .unimplemented u) ↔
    (w.toNat < 0x1000 ∧ w.toNat ≠ 0x0E0 ∧ w.toNat ≠ 0x0EE) ∨
    (w.toNat / 0x1000 = 0x8 ∧ 8 ≤ w.toNat % 16 ∧ w.toNat % 16 ≠ 0xE) ∨
    (w.toNat / 0x1000 = 0xE ∧ w.toNat % 256 ≠ 0x9E ∧ w.toNat % 256 ≠ 0xA1) ∨
    (w.toNat / 0x1000 = 0xF ∧ w.toNat % 256 ∉ [0x07, 0x0A, 0x15, 0x18, 0x1E, 0x29, 0x33, 0x55, 0x65])

/-- R81, R86: words written out from the encodings; the first three are the source's worked examples E1 to E3. -/
def Obligations.DecodesWrittenOutWords : Prop :=
  decode 0b0110_0101_0010_0000 = .instr (.ldByte 5 0x20) ∧
  decode 0b0111_0000_0000_0101 = .instr (.addByte 0 0x05) ∧
  decode 0b1000_0001_0010_0111 = .instr (.subn 1 2) ∧
  decode 0b0000_0000_1110_1110 = .instr .ret ∧
  decode 0b1101_0101_1010_0111 = .instr (.drw 5 10 7) ∧
  decode 0b1110_0101_1001_1110 = .instr (.skp 5) ∧
  decode 0b1111_1111_0110_0101 = .instr (.loadRegs 15) ∧
  decode 0b0000_0001_1110_0000 = .unimplemented .family0

/-! ## The tick, the events and the memory (60_exceptions.md, 20_memory.md) -/

/-- R207 with R61: when the next event is a tick and the machine is not waiting, the bytes at `PC` and `PC + 1` decide the
instruction, and the step is that instruction on the state with the event taken off the schedule (the state itself, when
nothing is scheduled: notes/assumptions/5.md). -/
def Obligations.StepRunsDecodedInstruction : Prop :=
  ∀ (s : State) (i : Instr), s.nextEvent = .tick → s.waiting = false →
    decodeBytes (s.readByte s.pc) (s.readByte (s.pc + 1)) = .instr i →
    step s = exec i s.takeEvent ∧ (s.pending = [] → step s = exec i s)

/-- R203, R208, R87 with decision D7: a tick, scheduled or not, that meets an unimplemented word advances `PC` by 2 and
reports `NotImplemented`, and changes nothing else but the model's mark (notes/assumptions/6.md). The result is on the state
with the event taken off the schedule (the state itself, when nothing is scheduled: notes/assumptions/5.md). -/
def Obligations.UnimplementedWordIsPassed : Prop :=
  ∀ (s : State) (u : Unimplemented), s.nextEvent = .tick → s.waiting = false → s.fetched = .unimplemented u →
    step s = .next { s.takeEvent with pc := s.pc + 2, status := .notImplemented, faultMark := true } ∧
    (s.pending = [] → step s = .next { s with pc := s.pc + 2, status := .notImplemented, faultMark := true })

/-- R209 with decision D23: a tick while waiting changes nothing but `STATUS`, whatever stands at `PC`. -/
def Obligations.WaitingTickChangesNothing : Prop :=
  ∀ s : State, s.waiting = true → tick s = .next { s with status := .waitForKeyboard }

/-- R216 with decision D22: a key press puts its key down in either state; it resolves a wait by writing the key value to
the pending register, clearing the latch and passing the Fx0A, and does nothing else. -/
def Obligations.KeyPressResolvesWait : Prop :=
  ∀ (k : Key) (s : State), ∃ t, applyEvent (.keyPress k) s = .next t ∧
    (∀ j, t.keyDown j = (s.keyDown j || decide (j = k))) ∧
    (s.waiting = true → (∀ r, (t.reg r).toNat = if r = s.waitReg then k.val else (s.reg r).toNat) ∧ t.waiting = false ∧
      t.pc = s.pc + 2) ∧
    (s.waiting = false → RegsKeptBut (fun _ => False) s t ∧ t.waiting = false ∧ t.pc = s.pc) ∧
    { t with keys := s.keys, v := s.v, waiting := s.waiting, pc := s.pc } = s

/-- R217: a key release puts its key up and does nothing else, in either driver state. -/
def Obligations.KeyReleaseChangesItsKeyOnly : Prop :=
  ∀ (k : Key) (s : State), ∃ t, applyEvent (.keyRelease k) s = .next t ∧
    (∀ j, t.keyDown j = (s.keyDown j && !decide (j = k))) ∧ { t with keys := s.keys } = s

/-- R221, R222 with decision D25: `n` timer ticks take `n` from each timer, down to 0 and no further, and change nothing
else. -/
def Obligations.TimerTicksSaturate : Prop :=
  ∀ (n : Nat) (s : State),
    ((timerTick^[n] s).dt.toNat = s.dt.toNat - n) ∧ ((timerTick^[n] s).st.toNat = s.st.toNat - n) ∧
      { timerTick^[n] s with dt := s.dt, st := s.st } = s

/-- R72 with decision D27: a program that fits is copied to 0x200 and changes nothing else; a longer one is refused. -/
def Obligations.LoadProgramCopiesBytes : Prop :=
  ∀ (bytes : List Byte) (s : State),
    (bytes.length ≤ 3584 → ∃ t, applyEvent (.loadProgram bytes) s = .next t ∧
      (∀ k (h : k < bytes.length), t.readByte (BitVec.ofNat 16 (0x200 + k)) = bytes[k]) ∧
      (∀ a, (memIndex a < 0x200 ∨ 0x200 + bytes.length ≤ memIndex a) → t.readByte a = s.readByte a) ∧
      { t with mem := s.mem } = s) ∧
    (3584 < bytes.length → applyEvent (.loadProgram bytes) s = .refused .programTooLong)

/-- R61, R62 (byte order: notes/assumptions/1.md): a word laid out at `PC`, its high byte first, is the word the next tick
decodes. -/
def Obligations.PlacedWordIsFetched : Prop :=
  ∀ (w : Word) (s : State), (s.placeWord w).fetchWord = w ∧ (s.placeWord w).fetched = decode w ∧
    (s.placeWord w).pc = s.pc

/-- R71, R248: bytes Fx55 stores over the following instruction are the ones the next tick decodes. -/
def Obligations.StoredBytesAreFetchedNext : Prop :=
  ∀ (x : RegIdx) (s t : State), 1 ≤ x → s.i = s.pc + 2 → exec (.storeRegs x) s = .next t →
    t.fetched = decodeBytes (s.reg 0) (s.reg 1)

/-! ## Reset (70_reset_and_hazards.md) -/

/-- R240, R241 (and R44; `WAIT` by decision D26): the `Reset` event, from any state, leaves `PC` at 0x200, `SP` at 0xFF and
the driver running. That it keeps the configuration is the model's choice (notes/assumptions/23.md), made because
parameters are "fixed for a run" (R15). -/
def Obligations.ResetSetsPcAndSp : Prop :=
  ∀ s : State, ∃ t, applyEvent .reset s = .next t ∧ t.pc = 0x200 ∧ t.sp = 0xFF ∧ t.waiting = false ∧ t.cfg = s.cfg

/-- R44, R240, R242: the `Reset` event, from any state, sets every piece of the spec's state at its reset value, the font
of the state's own configuration included (R68); so does the reset state, for every configuration. The values other than
`PC` and `SP` are the spec's own decision D26 (notes/assumptions/3.md); that the font is a configuration is the model's
form (notes/assumptions/2.md). -/
def Obligations.ResetClearsTheRest : Prop :=
  (∀ s : State, ∃ t, applyEvent .reset s = .next t ∧ HoldsResetValues s.cfg t) ∧
  ∀ c : Config, HoldsResetValues c (State.resetWith c)

/-- The state after reset meets the three invariants below, for every configuration. `StackInRange` is R30 and
`WaitReported` R215 at the values of R44; that memory is a list in canonical form is the model's own choice
(notes/assumptions/18.md), which no rule states. -/
def Obligations.ResetMeetsInvariants : Prop :=
  ∀ c : Config, MemoryCanonical (State.resetWith c) ∧ StackInRange (State.resetWith c) ∧ WaitReported (State.resetWith c)

/-! ## What every step keeps, from every state -/

/-- Every event keeps the memory in canonical form. The form is the model's own choice (notes/assumptions/18.md), which no
rule states: the list of the cells that differ from the reset contents, at rising addresses below the 4096 of R38 and R60,
so that equal memories are equal data. -/
def Obligations.MemoryStaysCanonical : Prop :=
  ∀ s t : State, MemoryCanonical s → step s = .next t → MemoryCanonical t

/-- R30: as long as no return runs on an empty stack, `SP` is 0xFF or 0x00 to 0x0F. -/
def Obligations.StackPointerStaysInRange : Prop :=
  ∀ s t : State, StackInRange s → s.underflowsNext = false → step s = .next t → StackInRange t

/-- R205, R215: a waiting machine has always just reported `WaitForKeyboard`; R90, R206: no step reports `Error`. -/
def Obligations.ReportedStatusIsSound : Prop :=
  ∀ s t : State, step s = .next t →
    (WaitReported s → WaitReported t) ∧ (s.status ≠ .error → t.status ≠ .error)

/-- R36, decision D8 (the model's mark, notes/assumptions/6.md): the mark is never cleared, and is set exactly by a tick
that reports a fault signal. -/
def Obligations.FaultMarkIsSticky : Prop :=
  ∀ s t : State, step s = .next t →
    (s.faultMark = true → t.faultMark = true) ∧
    (s.nextEvent = .tick → t.status.isFault = true → t.faultMark = true) ∧
    (s.faultMark = false → t.faultMark = true → s.nextEvent = .tick ∧ t.status.isFault = true)

/-- R60, R91, R233: the machine never stops by itself; only the load of a program that does not fit is refused. -/
def Obligations.EveryStepCompletes : Prop :=
  ∀ s : State, (∀ bytes, s.nextEvent = .loadProgram bytes → bytes.length ≤ 3584) → ∃ t, step s = .next t

/-! ## Only these events change this state -/

/-- R28, R29: only 2nnn, 00EE and `Reset` change the stack or its pointer. -/
def Obligations.OnlyCallAndReturnTouchStack : Prop :=
  ∀ s t : State, step s = .next t → ¬ SameStack s t →
    s.nextEvent = .reset ∨
    (s.fetchesNext = true ∧ (s.fetched = .instr .ret ∨ ∃ addr, s.fetched = .instr (.call addr)))

/-- R39: only 00E0, Dxyn and `Reset` change the framebuffer. -/
def Obligations.OnlyClearAndDrawTouchScreen : Prop :=
  ∀ s t : State, step s = .next t → t.fb ≠ s.fb →
    s.nextEvent = .reset ∨
    (s.fetchesNext = true ∧ (s.fetched = .instr .cls ∨ ∃ x y n, s.fetched = .instr (.drw x y n)))

/-- R31, R32 and conflict C9: only `TimerTick`, `Reset` and the two timer writes change a timer; no other tick does. -/
def Obligations.OnlyTimerEventsTouchTimers : Prop :=
  ∀ s t : State, step s = .next t →
    (t.dt ≠ s.dt → s.nextEvent = .reset ∨ s.nextEvent = .timerTick ∨
      (s.fetchesNext = true ∧ ∃ x, s.fetched = .instr (.ldDTVx x))) ∧
    (t.st ≠ s.st → s.nextEvent = .reset ∨ s.nextEvent = .timerTick ∨
      (s.fetchesNext = true ∧ ∃ x, s.fetched = .instr (.ldSTVx x)))

/-- R33, R35: the latch is set only by Fx0A and cleared only by a key press or `Reset`; a key changes only by a key event
or `Reset`. -/
def Obligations.OnlyKeyEventsTouchLatchAndKeys : Prop :=
  ∀ s t : State, step s = .next t →
    (s.waiting = false → t.waiting = true → s.fetchesNext = true ∧ ∃ x, s.fetched = .instr (.ldVxK x)) ∧
    (s.waiting = true → t.waiting = false → s.nextEvent = .reset ∨ ∃ k, s.nextEvent = .keyPress k) ∧
    (t.keys ≠ s.keys → s.nextEvent = .reset ∨ ∃ k, s.nextEvent = .keyPress k ∨ s.nextEvent = .keyRelease k)

/-- R38, R64: memory changes only by Fx33, Fx55, `LoadProgram` and `Reset`; the configuration never changes (R15). -/
def Obligations.OnlyStoresTouchMemory : Prop :=
  ∀ s t : State, step s = .next t → t.cfg = s.cfg ∧
    (¬ SameMemory s t → s.nextEvent = .reset ∨ (∃ bytes, s.nextEvent = .loadProgram bytes) ∨
      (s.fetchesNext = true ∧ ∃ x, s.fetched = .instr (.ldB x) ∨ s.fetched = .instr (.storeRegs x)))
end

