-- ==== Sys2Proof/Laws/State.lean ====
section
/-! SUPPORT. What each update of a state does to each field: one lemma per field per update, so that no later proof unfolds a
record update. -/

namespace Sys2Proof.Machine

/-! `State.setReg` -/

@[simp] theorem State.setReg_v (s : State) (x : RegIdx) (b : Byte) : (s.setReg x b).v = s.v.set x.val b x.isLt := rfl
@[simp] theorem State.setReg_i (s : State) (x : RegIdx) (b : Byte) : (s.setReg x b).i = s.i := rfl
@[simp] theorem State.setReg_pc (s : State) (x : RegIdx) (b : Byte) : (s.setReg x b).pc = s.pc := rfl
@[simp] theorem State.setReg_sp (s : State) (x : RegIdx) (b : Byte) : (s.setReg x b).sp = s.sp := rfl
@[simp] theorem State.setReg_stack (s : State) (x : RegIdx) (b : Byte) : (s.setReg x b).stack = s.stack := rfl
@[simp] theorem State.setReg_dt (s : State) (x : RegIdx) (b : Byte) : (s.setReg x b).dt = s.dt := rfl
@[simp] theorem State.setReg_st (s : State) (x : RegIdx) (b : Byte) : (s.setReg x b).st = s.st := rfl
@[simp] theorem State.setReg_fb (s : State) (x : RegIdx) (b : Byte) : (s.setReg x b).fb = s.fb := rfl
@[simp] theorem State.setReg_mem (s : State) (x : RegIdx) (b : Byte) : (s.setReg x b).mem = s.mem := rfl
@[simp] theorem State.setReg_waiting (s : State) (x : RegIdx) (b : Byte) : (s.setReg x b).waiting = s.waiting := rfl
@[simp] theorem State.setReg_waitReg (s : State) (x : RegIdx) (b : Byte) : (s.setReg x b).waitReg = s.waitReg := rfl
@[simp] theorem State.setReg_keys (s : State) (x : RegIdx) (b : Byte) : (s.setReg x b).keys = s.keys := rfl
@[simp] theorem State.setReg_status (s : State) (x : RegIdx) (b : Byte) : (s.setReg x b).status = s.status := rfl
@[simp] theorem State.setReg_cfg (s : State) (x : RegIdx) (b : Byte) : (s.setReg x b).cfg = s.cfg := rfl
@[simp] theorem State.setReg_faultMark (s : State) (x : RegIdx) (b : Byte) : (s.setReg x b).faultMark = s.faultMark := rfl
@[simp] theorem State.setReg_draws (s : State) (x : RegIdx) (b : Byte) : (s.setReg x b).draws = s.draws := rfl
@[simp] theorem State.setReg_pending (s : State) (x : RegIdx) (b : Byte) : (s.setReg x b).pending = s.pending := rfl

/-! `State.writeByte` -/

@[simp] theorem State.writeByte_v (s : State) (a : Word) (b : Byte) : (s.writeByte a b).v = s.v := rfl
@[simp] theorem State.writeByte_i (s : State) (a : Word) (b : Byte) : (s.writeByte a b).i = s.i := rfl
@[simp] theorem State.writeByte_pc (s : State) (a : Word) (b : Byte) : (s.writeByte a b).pc = s.pc := rfl
@[simp] theorem State.writeByte_sp (s : State) (a : Word) (b : Byte) : (s.writeByte a b).sp = s.sp := rfl
@[simp] theorem State.writeByte_stack (s : State) (a : Word) (b : Byte) : (s.writeByte a b).stack = s.stack := rfl
@[simp] theorem State.writeByte_dt (s : State) (a : Word) (b : Byte) : (s.writeByte a b).dt = s.dt := rfl
@[simp] theorem State.writeByte_st (s : State) (a : Word) (b : Byte) : (s.writeByte a b).st = s.st := rfl
@[simp] theorem State.writeByte_fb (s : State) (a : Word) (b : Byte) : (s.writeByte a b).fb = s.fb := rfl
@[simp] theorem State.writeByte_mem (s : State) (a : Word) (b : Byte) : (s.writeByte a b).mem = Memory.write s.cfg s.mem (memIndex a) b := rfl
@[simp] theorem State.writeByte_waiting (s : State) (a : Word) (b : Byte) : (s.writeByte a b).waiting = s.waiting := rfl
@[simp] theorem State.writeByte_waitReg (s : State) (a : Word) (b : Byte) : (s.writeByte a b).waitReg = s.waitReg := rfl
@[simp] theorem State.writeByte_keys (s : State) (a : Word) (b : Byte) : (s.writeByte a b).keys = s.keys := rfl
@[simp] theorem State.writeByte_status (s : State) (a : Word) (b : Byte) : (s.writeByte a b).status = s.status := rfl
@[simp] theorem State.writeByte_cfg (s : State) (a : Word) (b : Byte) : (s.writeByte a b).cfg = s.cfg := rfl
@[simp] theorem State.writeByte_faultMark (s : State) (a : Word) (b : Byte) : (s.writeByte a b).faultMark = s.faultMark := rfl
@[simp] theorem State.writeByte_draws (s : State) (a : Word) (b : Byte) : (s.writeByte a b).draws = s.draws := rfl
@[simp] theorem State.writeByte_pending (s : State) (a : Word) (b : Byte) : (s.writeByte a b).pending = s.pending := rfl

/-! `State.setPc` -/

@[simp] theorem State.setPc_v (s : State) (a : Word) : (s.setPc a).v = s.v := rfl
@[simp] theorem State.setPc_i (s : State) (a : Word) : (s.setPc a).i = s.i := rfl
@[simp] theorem State.setPc_pc (s : State) (a : Word) : (s.setPc a).pc = a := rfl
@[simp] theorem State.setPc_sp (s : State) (a : Word) : (s.setPc a).sp = s.sp := rfl
@[simp] theorem State.setPc_stack (s : State) (a : Word) : (s.setPc a).stack = s.stack := rfl
@[simp] theorem State.setPc_dt (s : State) (a : Word) : (s.setPc a).dt = s.dt := rfl
@[simp] theorem State.setPc_st (s : State) (a : Word) : (s.setPc a).st = s.st := rfl
@[simp] theorem State.setPc_fb (s : State) (a : Word) : (s.setPc a).fb = s.fb := rfl
@[simp] theorem State.setPc_mem (s : State) (a : Word) : (s.setPc a).mem = s.mem := rfl
@[simp] theorem State.setPc_waiting (s : State) (a : Word) : (s.setPc a).waiting = s.waiting := rfl
@[simp] theorem State.setPc_waitReg (s : State) (a : Word) : (s.setPc a).waitReg = s.waitReg := rfl
@[simp] theorem State.setPc_keys (s : State) (a : Word) : (s.setPc a).keys = s.keys := rfl
@[simp] theorem State.setPc_status (s : State) (a : Word) : (s.setPc a).status = s.status := rfl
@[simp] theorem State.setPc_cfg (s : State) (a : Word) : (s.setPc a).cfg = s.cfg := rfl
@[simp] theorem State.setPc_faultMark (s : State) (a : Word) : (s.setPc a).faultMark = s.faultMark := rfl
@[simp] theorem State.setPc_draws (s : State) (a : Word) : (s.setPc a).draws = s.draws := rfl
@[simp] theorem State.setPc_pending (s : State) (a : Word) : (s.setPc a).pending = s.pending := rfl

/-! `State.push` -/

@[simp] theorem State.push_v (s : State) (w : Word) : (s.push w).v = s.v := rfl
@[simp] theorem State.push_i (s : State) (w : Word) : (s.push w).i = s.i := rfl
@[simp] theorem State.push_pc (s : State) (w : Word) : (s.push w).pc = s.pc := rfl
@[simp] theorem State.push_sp (s : State) (w : Word) : (s.push w).sp = s.sp + 1 := rfl
@[simp] theorem State.push_stack (s : State) (w : Word) : (s.push w).stack = s.stack.set (slotOf (s.sp + 1)).val w (slotOf (s.sp + 1)).isLt := rfl
@[simp] theorem State.push_dt (s : State) (w : Word) : (s.push w).dt = s.dt := rfl
@[simp] theorem State.push_st (s : State) (w : Word) : (s.push w).st = s.st := rfl
@[simp] theorem State.push_fb (s : State) (w : Word) : (s.push w).fb = s.fb := rfl
@[simp] theorem State.push_mem (s : State) (w : Word) : (s.push w).mem = s.mem := rfl
@[simp] theorem State.push_waiting (s : State) (w : Word) : (s.push w).waiting = s.waiting := rfl
@[simp] theorem State.push_waitReg (s : State) (w : Word) : (s.push w).waitReg = s.waitReg := rfl
@[simp] theorem State.push_keys (s : State) (w : Word) : (s.push w).keys = s.keys := rfl
@[simp] theorem State.push_status (s : State) (w : Word) : (s.push w).status = s.status := rfl
@[simp] theorem State.push_cfg (s : State) (w : Word) : (s.push w).cfg = s.cfg := rfl
@[simp] theorem State.push_faultMark (s : State) (w : Word) : (s.push w).faultMark = s.faultMark := rfl
@[simp] theorem State.push_draws (s : State) (w : Word) : (s.push w).draws = s.draws := rfl
@[simp] theorem State.push_pending (s : State) (w : Word) : (s.push w).pending = s.pending := rfl

/-! `State.drop` -/

@[simp] theorem State.drop_v (s : State) : (s.drop).v = s.v := rfl
@[simp] theorem State.drop_i (s : State) : (s.drop).i = s.i := rfl
@[simp] theorem State.drop_pc (s : State) : (s.drop).pc = s.pc := rfl
@[simp] theorem State.drop_sp (s : State) : (s.drop).sp = s.sp - 1 := rfl
@[simp] theorem State.drop_stack (s : State) : (s.drop).stack = s.stack := rfl
@[simp] theorem State.drop_dt (s : State) : (s.drop).dt = s.dt := rfl
@[simp] theorem State.drop_st (s : State) : (s.drop).st = s.st := rfl
@[simp] theorem State.drop_fb (s : State) : (s.drop).fb = s.fb := rfl
@[simp] theorem State.drop_mem (s : State) : (s.drop).mem = s.mem := rfl
@[simp] theorem State.drop_waiting (s : State) : (s.drop).waiting = s.waiting := rfl
@[simp] theorem State.drop_waitReg (s : State) : (s.drop).waitReg = s.waitReg := rfl
@[simp] theorem State.drop_keys (s : State) : (s.drop).keys = s.keys := rfl
@[simp] theorem State.drop_status (s : State) : (s.drop).status = s.status := rfl
@[simp] theorem State.drop_cfg (s : State) : (s.drop).cfg = s.cfg := rfl
@[simp] theorem State.drop_faultMark (s : State) : (s.drop).faultMark = s.faultMark := rfl
@[simp] theorem State.drop_draws (s : State) : (s.drop).draws = s.draws := rfl
@[simp] theorem State.drop_pending (s : State) : (s.drop).pending = s.pending := rfl

/-! `State.endTick` -/

@[simp] theorem State.endTick_v (s : State) (sig : Signal) : (s.endTick sig).v = s.v := rfl
@[simp] theorem State.endTick_i (s : State) (sig : Signal) : (s.endTick sig).i = s.i := rfl
@[simp] theorem State.endTick_pc (s : State) (sig : Signal) : (s.endTick sig).pc = s.pc + sig.pcAdvance := rfl
@[simp] theorem State.endTick_sp (s : State) (sig : Signal) : (s.endTick sig).sp = s.sp := rfl
@[simp] theorem State.endTick_stack (s : State) (sig : Signal) : (s.endTick sig).stack = s.stack := rfl
@[simp] theorem State.endTick_dt (s : State) (sig : Signal) : (s.endTick sig).dt = s.dt := rfl
@[simp] theorem State.endTick_st (s : State) (sig : Signal) : (s.endTick sig).st = s.st := rfl
@[simp] theorem State.endTick_fb (s : State) (sig : Signal) : (s.endTick sig).fb = s.fb := rfl
@[simp] theorem State.endTick_mem (s : State) (sig : Signal) : (s.endTick sig).mem = s.mem := rfl
@[simp] theorem State.endTick_waiting (s : State) (sig : Signal) : (s.endTick sig).waiting = s.waiting := rfl
@[simp] theorem State.endTick_waitReg (s : State) (sig : Signal) : (s.endTick sig).waitReg = s.waitReg := rfl
@[simp] theorem State.endTick_keys (s : State) (sig : Signal) : (s.endTick sig).keys = s.keys := rfl
@[simp] theorem State.endTick_status (s : State) (sig : Signal) : (s.endTick sig).status = sig := rfl
@[simp] theorem State.endTick_cfg (s : State) (sig : Signal) : (s.endTick sig).cfg = s.cfg := rfl
@[simp] theorem State.endTick_faultMark (s : State) (sig : Signal) : (s.endTick sig).faultMark = (s.faultMark || sig.isFault) := rfl
@[simp] theorem State.endTick_draws (s : State) (sig : Signal) : (s.endTick sig).draws = s.draws := rfl
@[simp] theorem State.endTick_pending (s : State) (sig : Signal) : (s.endTick sig).pending = s.pending := rfl

/-! `State.suspend` -/

@[simp] theorem State.suspend_v (s : State) (x : RegIdx) : (s.suspend x).v = s.v := rfl
@[simp] theorem State.suspend_i (s : State) (x : RegIdx) : (s.suspend x).i = s.i := rfl
@[simp] theorem State.suspend_pc (s : State) (x : RegIdx) : (s.suspend x).pc = s.pc := rfl
@[simp] theorem State.suspend_sp (s : State) (x : RegIdx) : (s.suspend x).sp = s.sp := rfl
@[simp] theorem State.suspend_stack (s : State) (x : RegIdx) : (s.suspend x).stack = s.stack := rfl
@[simp] theorem State.suspend_dt (s : State) (x : RegIdx) : (s.suspend x).dt = s.dt := rfl
@[simp] theorem State.suspend_st (s : State) (x : RegIdx) : (s.suspend x).st = s.st := rfl
@[simp] theorem State.suspend_fb (s : State) (x : RegIdx) : (s.suspend x).fb = s.fb := rfl
@[simp] theorem State.suspend_mem (s : State) (x : RegIdx) : (s.suspend x).mem = s.mem := rfl
@[simp] theorem State.suspend_waiting (s : State) (x : RegIdx) : (s.suspend x).waiting = true := rfl
@[simp] theorem State.suspend_waitReg (s : State) (x : RegIdx) : (s.suspend x).waitReg = x := rfl
@[simp] theorem State.suspend_keys (s : State) (x : RegIdx) : (s.suspend x).keys = s.keys := rfl
@[simp] theorem State.suspend_status (s : State) (x : RegIdx) : (s.suspend x).status = s.status := rfl
@[simp] theorem State.suspend_cfg (s : State) (x : RegIdx) : (s.suspend x).cfg = s.cfg := rfl
@[simp] theorem State.suspend_faultMark (s : State) (x : RegIdx) : (s.suspend x).faultMark = s.faultMark := rfl
@[simp] theorem State.suspend_draws (s : State) (x : RegIdx) : (s.suspend x).draws = s.draws := rfl
@[simp] theorem State.suspend_pending (s : State) (x : RegIdx) : (s.suspend x).pending = s.pending := rfl

/-! `State.resume` -/

@[simp] theorem State.resume_v (s : State) (k : Key) : (s.resume k).v = s.v.set s.waitReg.val (BitVec.ofNat 8 k.val) s.waitReg.isLt := rfl
@[simp] theorem State.resume_i (s : State) (k : Key) : (s.resume k).i = s.i := rfl
@[simp] theorem State.resume_pc (s : State) (k : Key) : (s.resume k).pc = s.pc + 2 := rfl
@[simp] theorem State.resume_sp (s : State) (k : Key) : (s.resume k).sp = s.sp := rfl
@[simp] theorem State.resume_stack (s : State) (k : Key) : (s.resume k).stack = s.stack := rfl
@[simp] theorem State.resume_dt (s : State) (k : Key) : (s.resume k).dt = s.dt := rfl
@[simp] theorem State.resume_st (s : State) (k : Key) : (s.resume k).st = s.st := rfl
@[simp] theorem State.resume_fb (s : State) (k : Key) : (s.resume k).fb = s.fb := rfl
@[simp] theorem State.resume_mem (s : State) (k : Key) : (s.resume k).mem = s.mem := rfl
@[simp] theorem State.resume_waiting (s : State) (k : Key) : (s.resume k).waiting = false := rfl
@[simp] theorem State.resume_waitReg (s : State) (k : Key) : (s.resume k).waitReg = s.waitReg := rfl
@[simp] theorem State.resume_keys (s : State) (k : Key) : (s.resume k).keys = s.keys := rfl
@[simp] theorem State.resume_status (s : State) (k : Key) : (s.resume k).status = s.status := rfl
@[simp] theorem State.resume_cfg (s : State) (k : Key) : (s.resume k).cfg = s.cfg := rfl
@[simp] theorem State.resume_faultMark (s : State) (k : Key) : (s.resume k).faultMark = s.faultMark := rfl
@[simp] theorem State.resume_draws (s : State) (k : Key) : (s.resume k).draws = s.draws := rfl
@[simp] theorem State.resume_pending (s : State) (k : Key) : (s.resume k).pending = s.pending := rfl

/-! `State.setKey` -/

@[simp] theorem State.setKey_v (s : State) (k : Key) (b : Bool) : (s.setKey k b).v = s.v := rfl
@[simp] theorem State.setKey_i (s : State) (k : Key) (b : Bool) : (s.setKey k b).i = s.i := rfl
@[simp] theorem State.setKey_pc (s : State) (k : Key) (b : Bool) : (s.setKey k b).pc = s.pc := rfl
@[simp] theorem State.setKey_sp (s : State) (k : Key) (b : Bool) : (s.setKey k b).sp = s.sp := rfl
@[simp] theorem State.setKey_stack (s : State) (k : Key) (b : Bool) : (s.setKey k b).stack = s.stack := rfl
@[simp] theorem State.setKey_dt (s : State) (k : Key) (b : Bool) : (s.setKey k b).dt = s.dt := rfl
@[simp] theorem State.setKey_st (s : State) (k : Key) (b : Bool) : (s.setKey k b).st = s.st := rfl
@[simp] theorem State.setKey_fb (s : State) (k : Key) (b : Bool) : (s.setKey k b).fb = s.fb := rfl
@[simp] theorem State.setKey_mem (s : State) (k : Key) (b : Bool) : (s.setKey k b).mem = s.mem := rfl
@[simp] theorem State.setKey_waiting (s : State) (k : Key) (b : Bool) : (s.setKey k b).waiting = s.waiting := rfl
@[simp] theorem State.setKey_waitReg (s : State) (k : Key) (b : Bool) : (s.setKey k b).waitReg = s.waitReg := rfl
@[simp] theorem State.setKey_keys (s : State) (k : Key) (b : Bool) : (s.setKey k b).keys = s.keys.set k.val b k.isLt := rfl
@[simp] theorem State.setKey_status (s : State) (k : Key) (b : Bool) : (s.setKey k b).status = s.status := rfl
@[simp] theorem State.setKey_cfg (s : State) (k : Key) (b : Bool) : (s.setKey k b).cfg = s.cfg := rfl
@[simp] theorem State.setKey_faultMark (s : State) (k : Key) (b : Bool) : (s.setKey k b).faultMark = s.faultMark := rfl
@[simp] theorem State.setKey_draws (s : State) (k : Key) (b : Bool) : (s.setKey k b).draws = s.draws := rfl
@[simp] theorem State.setKey_pending (s : State) (k : Key) (b : Bool) : (s.setKey k b).pending = s.pending := rfl

/-! `State.takeEvent` -/

@[simp] theorem State.takeEvent_v (s : State) : (s.takeEvent).v = s.v := rfl
@[simp] theorem State.takeEvent_i (s : State) : (s.takeEvent).i = s.i := rfl
@[simp] theorem State.takeEvent_pc (s : State) : (s.takeEvent).pc = s.pc := rfl
@[simp] theorem State.takeEvent_sp (s : State) : (s.takeEvent).sp = s.sp := rfl
@[simp] theorem State.takeEvent_stack (s : State) : (s.takeEvent).stack = s.stack := rfl
@[simp] theorem State.takeEvent_dt (s : State) : (s.takeEvent).dt = s.dt := rfl
@[simp] theorem State.takeEvent_st (s : State) : (s.takeEvent).st = s.st := rfl
@[simp] theorem State.takeEvent_fb (s : State) : (s.takeEvent).fb = s.fb := rfl
@[simp] theorem State.takeEvent_mem (s : State) : (s.takeEvent).mem = s.mem := rfl
@[simp] theorem State.takeEvent_waiting (s : State) : (s.takeEvent).waiting = s.waiting := rfl
@[simp] theorem State.takeEvent_waitReg (s : State) : (s.takeEvent).waitReg = s.waitReg := rfl
@[simp] theorem State.takeEvent_keys (s : State) : (s.takeEvent).keys = s.keys := rfl
@[simp] theorem State.takeEvent_status (s : State) : (s.takeEvent).status = s.status := rfl
@[simp] theorem State.takeEvent_cfg (s : State) : (s.takeEvent).cfg = s.cfg := rfl
@[simp] theorem State.takeEvent_faultMark (s : State) : (s.takeEvent).faultMark = s.faultMark := rfl
@[simp] theorem State.takeEvent_draws (s : State) : (s.takeEvent).draws = s.draws := rfl
@[simp] theorem State.takeEvent_pending (s : State) : (s.takeEvent).pending = s.pending.tail := rfl

/-! `State.setRegFlag` -/

@[simp] theorem State.setRegFlag_v (s : State) (d : RegIdx) (r : Byte) (f : Bool) : (s.setRegFlag d r f).v = (s.v.set d.val r d.isLt).set flagReg.val (flagByte f) flagReg.isLt := rfl
@[simp] theorem State.setRegFlag_i (s : State) (d : RegIdx) (r : Byte) (f : Bool) : (s.setRegFlag d r f).i = s.i := rfl
@[simp] theorem State.setRegFlag_pc (s : State) (d : RegIdx) (r : Byte) (f : Bool) : (s.setRegFlag d r f).pc = s.pc := rfl
@[simp] theorem State.setRegFlag_sp (s : State) (d : RegIdx) (r : Byte) (f : Bool) : (s.setRegFlag d r f).sp = s.sp := rfl
@[simp] theorem State.setRegFlag_stack (s : State) (d : RegIdx) (r : Byte) (f : Bool) : (s.setRegFlag d r f).stack = s.stack := rfl
@[simp] theorem State.setRegFlag_dt (s : State) (d : RegIdx) (r : Byte) (f : Bool) : (s.setRegFlag d r f).dt = s.dt := rfl
@[simp] theorem State.setRegFlag_st (s : State) (d : RegIdx) (r : Byte) (f : Bool) : (s.setRegFlag d r f).st = s.st := rfl
@[simp] theorem State.setRegFlag_fb (s : State) (d : RegIdx) (r : Byte) (f : Bool) : (s.setRegFlag d r f).fb = s.fb := rfl
@[simp] theorem State.setRegFlag_mem (s : State) (d : RegIdx) (r : Byte) (f : Bool) : (s.setRegFlag d r f).mem = s.mem := rfl
@[simp] theorem State.setRegFlag_waiting (s : State) (d : RegIdx) (r : Byte) (f : Bool) : (s.setRegFlag d r f).waiting = s.waiting := rfl
@[simp] theorem State.setRegFlag_waitReg (s : State) (d : RegIdx) (r : Byte) (f : Bool) : (s.setRegFlag d r f).waitReg = s.waitReg := rfl
@[simp] theorem State.setRegFlag_keys (s : State) (d : RegIdx) (r : Byte) (f : Bool) : (s.setRegFlag d r f).keys = s.keys := rfl
@[simp] theorem State.setRegFlag_status (s : State) (d : RegIdx) (r : Byte) (f : Bool) : (s.setRegFlag d r f).status = s.status := rfl
@[simp] theorem State.setRegFlag_cfg (s : State) (d : RegIdx) (r : Byte) (f : Bool) : (s.setRegFlag d r f).cfg = s.cfg := rfl
@[simp] theorem State.setRegFlag_faultMark (s : State) (d : RegIdx) (r : Byte) (f : Bool) : (s.setRegFlag d r f).faultMark = s.faultMark := rfl
@[simp] theorem State.setRegFlag_draws (s : State) (d : RegIdx) (r : Byte) (f : Bool) : (s.setRegFlag d r f).draws = s.draws := rfl
@[simp] theorem State.setRegFlag_pending (s : State) (d : RegIdx) (r : Byte) (f : Bool) : (s.setRegFlag d r f).pending = s.pending := rfl

/-! Updates of a whole event, and the updates written as a list of bytes -/

@[simp] theorem timerTick_v (s : State) : (timerTick s).v = s.v := rfl
@[simp] theorem timerTick_i (s : State) : (timerTick s).i = s.i := rfl
@[simp] theorem timerTick_pc (s : State) : (timerTick s).pc = s.pc := rfl
@[simp] theorem timerTick_sp (s : State) : (timerTick s).sp = s.sp := rfl
@[simp] theorem timerTick_stack (s : State) : (timerTick s).stack = s.stack := rfl
@[simp] theorem timerTick_dt (s : State) : (timerTick s).dt = decay s.dt := rfl
@[simp] theorem timerTick_st (s : State) : (timerTick s).st = decay s.st := rfl
@[simp] theorem timerTick_fb (s : State) : (timerTick s).fb = s.fb := rfl
@[simp] theorem timerTick_mem (s : State) : (timerTick s).mem = s.mem := rfl
@[simp] theorem timerTick_waiting (s : State) : (timerTick s).waiting = s.waiting := rfl
@[simp] theorem timerTick_waitReg (s : State) : (timerTick s).waitReg = s.waitReg := rfl
@[simp] theorem timerTick_keys (s : State) : (timerTick s).keys = s.keys := rfl
@[simp] theorem timerTick_status (s : State) : (timerTick s).status = s.status := rfl
@[simp] theorem timerTick_cfg (s : State) : (timerTick s).cfg = s.cfg := rfl
@[simp] theorem timerTick_faultMark (s : State) : (timerTick s).faultMark = s.faultMark := rfl
@[simp] theorem timerTick_draws (s : State) : (timerTick s).draws = s.draws := rfl
@[simp] theorem timerTick_pending (s : State) : (timerTick s).pending = s.pending := rfl

@[simp] theorem keyRelease_v (s : State) (k : Key) : (keyRelease k s).v = s.v := rfl
@[simp] theorem keyRelease_i (s : State) (k : Key) : (keyRelease k s).i = s.i := rfl
@[simp] theorem keyRelease_pc (s : State) (k : Key) : (keyRelease k s).pc = s.pc := rfl
@[simp] theorem keyRelease_sp (s : State) (k : Key) : (keyRelease k s).sp = s.sp := rfl
@[simp] theorem keyRelease_stack (s : State) (k : Key) : (keyRelease k s).stack = s.stack := rfl
@[simp] theorem keyRelease_dt (s : State) (k : Key) : (keyRelease k s).dt = s.dt := rfl
@[simp] theorem keyRelease_st (s : State) (k : Key) : (keyRelease k s).st = s.st := rfl
@[simp] theorem keyRelease_fb (s : State) (k : Key) : (keyRelease k s).fb = s.fb := rfl
@[simp] theorem keyRelease_mem (s : State) (k : Key) : (keyRelease k s).mem = s.mem := rfl
@[simp] theorem keyRelease_waiting (s : State) (k : Key) : (keyRelease k s).waiting = s.waiting := rfl
@[simp] theorem keyRelease_waitReg (s : State) (k : Key) : (keyRelease k s).waitReg = s.waitReg := rfl
@[simp] theorem keyRelease_keys (s : State) (k : Key) : (keyRelease k s).keys = s.keys.set k.val false k.isLt := rfl
@[simp] theorem keyRelease_status (s : State) (k : Key) : (keyRelease k s).status = s.status := rfl
@[simp] theorem keyRelease_cfg (s : State) (k : Key) : (keyRelease k s).cfg = s.cfg := rfl
@[simp] theorem keyRelease_faultMark (s : State) (k : Key) : (keyRelease k s).faultMark = s.faultMark := rfl
@[simp] theorem keyRelease_draws (s : State) (k : Key) : (keyRelease k s).draws = s.draws := rfl
@[simp] theorem keyRelease_pending (s : State) (k : Key) : (keyRelease k s).pending = s.pending := rfl

@[simp] theorem resetEvent_v (s : State) : (resetEvent s).v = (State.resetWith s.cfg).v := rfl
@[simp] theorem resetEvent_i (s : State) : (resetEvent s).i = (State.resetWith s.cfg).i := rfl
@[simp] theorem resetEvent_pc (s : State) : (resetEvent s).pc = (State.resetWith s.cfg).pc := rfl
@[simp] theorem resetEvent_sp (s : State) : (resetEvent s).sp = (State.resetWith s.cfg).sp := rfl
@[simp] theorem resetEvent_stack (s : State) : (resetEvent s).stack = (State.resetWith s.cfg).stack := rfl
@[simp] theorem resetEvent_dt (s : State) : (resetEvent s).dt = (State.resetWith s.cfg).dt := rfl
@[simp] theorem resetEvent_st (s : State) : (resetEvent s).st = (State.resetWith s.cfg).st := rfl
@[simp] theorem resetEvent_fb (s : State) : (resetEvent s).fb = (State.resetWith s.cfg).fb := rfl
@[simp] theorem resetEvent_mem (s : State) : (resetEvent s).mem = (State.resetWith s.cfg).mem := rfl
@[simp] theorem resetEvent_waiting (s : State) : (resetEvent s).waiting = (State.resetWith s.cfg).waiting := rfl
@[simp] theorem resetEvent_waitReg (s : State) : (resetEvent s).waitReg = (State.resetWith s.cfg).waitReg := rfl
@[simp] theorem resetEvent_keys (s : State) : (resetEvent s).keys = (State.resetWith s.cfg).keys := rfl
@[simp] theorem resetEvent_status (s : State) : (resetEvent s).status = (State.resetWith s.cfg).status := rfl
@[simp] theorem resetEvent_cfg (s : State) : (resetEvent s).cfg = s.cfg := rfl
@[simp] theorem resetEvent_faultMark (s : State) : (resetEvent s).faultMark = s.faultMark := rfl
@[simp] theorem resetEvent_draws (s : State) : (resetEvent s).draws = s.draws := rfl
@[simp] theorem resetEvent_pending (s : State) : (resetEvent s).pending = s.pending := rfl

@[simp] theorem State.storeBytes_v (s : State) (a : Word) (bs : List Byte) : (s.storeBytes a bs).v = s.v := by
  induction bs generalizing s a with
  | nil => rfl
  | cons b bs ih => simp [State.storeBytes, ih]

@[simp] theorem State.storeBytes_i (s : State) (a : Word) (bs : List Byte) : (s.storeBytes a bs).i = s.i := by
  induction bs generalizing s a with
  | nil => rfl
  | cons b bs ih => simp [State.storeBytes, ih]

@[simp] theorem State.storeBytes_pc (s : State) (a : Word) (bs : List Byte) : (s.storeBytes a bs).pc = s.pc := by
  induction bs generalizing s a with
  | nil => rfl
  | cons b bs ih => simp [State.storeBytes, ih]

@[simp] theorem State.storeBytes_sp (s : State) (a : Word) (bs : List Byte) : (s.storeBytes a bs).sp = s.sp := by
  induction bs generalizing s a with
  | nil => rfl
  | cons b bs ih => simp [State.storeBytes, ih]

@[simp] theorem State.storeBytes_stack (s : State) (a : Word) (bs : List Byte) : (s.storeBytes a bs).stack = s.stack := by
  induction bs generalizing s a with
  | nil => rfl
  | cons b bs ih => simp [State.storeBytes, ih]

@[simp] theorem State.storeBytes_dt (s : State) (a : Word) (bs : List Byte) : (s.storeBytes a bs).dt = s.dt := by
  induction bs generalizing s a with
  | nil => rfl
  | cons b bs ih => simp [State.storeBytes, ih]

@[simp] theorem State.storeBytes_st (s : State) (a : Word) (bs : List Byte) : (s.storeBytes a bs).st = s.st := by
  induction bs generalizing s a with
  | nil => rfl
  | cons b bs ih => simp [State.storeBytes, ih]

@[simp] theorem State.storeBytes_fb (s : State) (a : Word) (bs : List Byte) : (s.storeBytes a bs).fb = s.fb := by
  induction bs generalizing s a with
  | nil => rfl
  | cons b bs ih => simp [State.storeBytes, ih]

@[simp] theorem State.storeBytes_waiting (s : State) (a : Word) (bs : List Byte) : (s.storeBytes a bs).waiting = s.waiting := by
  induction bs generalizing s a with
  | nil => rfl
  | cons b bs ih => simp [State.storeBytes, ih]

@[simp] theorem State.storeBytes_waitReg (s : State) (a : Word) (bs : List Byte) : (s.storeBytes a bs).waitReg = s.waitReg := by
  induction bs generalizing s a with
  | nil => rfl
  | cons b bs ih => simp [State.storeBytes, ih]

@[simp] theorem State.storeBytes_keys (s : State) (a : Word) (bs : List Byte) : (s.storeBytes a bs).keys = s.keys := by
  induction bs generalizing s a with
  | nil => rfl
  | cons b bs ih => simp [State.storeBytes, ih]

@[simp] theorem State.storeBytes_status (s : State) (a : Word) (bs : List Byte) : (s.storeBytes a bs).status = s.status := by
  induction bs generalizing s a with
  | nil => rfl
  | cons b bs ih => simp [State.storeBytes, ih]

@[simp] theorem State.storeBytes_cfg (s : State) (a : Word) (bs : List Byte) : (s.storeBytes a bs).cfg = s.cfg := by
  induction bs generalizing s a with
  | nil => rfl
  | cons b bs ih => simp [State.storeBytes, ih]

@[simp] theorem State.storeBytes_faultMark (s : State) (a : Word) (bs : List Byte) : (s.storeBytes a bs).faultMark = s.faultMark := by
  induction bs generalizing s a with
  | nil => rfl
  | cons b bs ih => simp [State.storeBytes, ih]

@[simp] theorem State.storeBytes_draws (s : State) (a : Word) (bs : List Byte) : (s.storeBytes a bs).draws = s.draws := by
  induction bs generalizing s a with
  | nil => rfl
  | cons b bs ih => simp [State.storeBytes, ih]

@[simp] theorem State.storeBytes_pending (s : State) (a : Word) (bs : List Byte) : (s.storeBytes a bs).pending = s.pending := by
  induction bs generalizing s a with
  | nil => rfl
  | cons b bs ih => simp [State.storeBytes, ih]

@[simp] theorem State.setRegsFrom_i (s : State) (k : Nat) (bs : List Byte) : (s.setRegsFrom k bs).i = s.i := by
  induction bs generalizing s k with
  | nil => rfl
  | cons b bs ih => simp [State.setRegsFrom, ih]

@[simp] theorem State.setRegsFrom_pc (s : State) (k : Nat) (bs : List Byte) : (s.setRegsFrom k bs).pc = s.pc := by
  induction bs generalizing s k with
  | nil => rfl
  | cons b bs ih => simp [State.setRegsFrom, ih]

@[simp] theorem State.setRegsFrom_sp (s : State) (k : Nat) (bs : List Byte) : (s.setRegsFrom k bs).sp = s.sp := by
  induction bs generalizing s k with
  | nil => rfl
  | cons b bs ih => simp [State.setRegsFrom, ih]

@[simp] theorem State.setRegsFrom_stack (s : State) (k : Nat) (bs : List Byte) : (s.setRegsFrom k bs).stack = s.stack := by
  induction bs generalizing s k with
  | nil => rfl
  | cons b bs ih => simp [State.setRegsFrom, ih]

@[simp] theorem State.setRegsFrom_dt (s : State) (k : Nat) (bs : List Byte) : (s.setRegsFrom k bs).dt = s.dt := by
  induction bs generalizing s k with
  | nil => rfl
  | cons b bs ih => simp [State.setRegsFrom, ih]

@[simp] theorem State.setRegsFrom_st (s : State) (k : Nat) (bs : List Byte) : (s.setRegsFrom k bs).st = s.st := by
  induction bs generalizing s k with
  | nil => rfl
  | cons b bs ih => simp [State.setRegsFrom, ih]

@[simp] theorem State.setRegsFrom_fb (s : State) (k : Nat) (bs : List Byte) : (s.setRegsFrom k bs).fb = s.fb := by
  induction bs generalizing s k with
  | nil => rfl
  | cons b bs ih => simp [State.setRegsFrom, ih]

@[simp] theorem State.setRegsFrom_mem (s : State) (k : Nat) (bs : List Byte) : (s.setRegsFrom k bs).mem = s.mem := by
  induction bs generalizing s k with
  | nil => rfl
  | cons b bs ih => simp [State.setRegsFrom, ih]

@[simp] theorem State.setRegsFrom_waiting (s : State) (k : Nat) (bs : List Byte) : (s.setRegsFrom k bs).waiting = s.waiting := by
  induction bs generalizing s k with
  | nil => rfl
  | cons b bs ih => simp [State.setRegsFrom, ih]

@[simp] theorem State.setRegsFrom_waitReg (s : State) (k : Nat) (bs : List Byte) : (s.setRegsFrom k bs).waitReg = s.waitReg := by
  induction bs generalizing s k with
  | nil => rfl
  | cons b bs ih => simp [State.setRegsFrom, ih]

@[simp] theorem State.setRegsFrom_keys (s : State) (k : Nat) (bs : List Byte) : (s.setRegsFrom k bs).keys = s.keys := by
  induction bs generalizing s k with
  | nil => rfl
  | cons b bs ih => simp [State.setRegsFrom, ih]

@[simp] theorem State.setRegsFrom_status (s : State) (k : Nat) (bs : List Byte) : (s.setRegsFrom k bs).status = s.status := by
  induction bs generalizing s k with
  | nil => rfl
  | cons b bs ih => simp [State.setRegsFrom, ih]

@[simp] theorem State.setRegsFrom_cfg (s : State) (k : Nat) (bs : List Byte) : (s.setRegsFrom k bs).cfg = s.cfg := by
  induction bs generalizing s k with
  | nil => rfl
  | cons b bs ih => simp [State.setRegsFrom, ih]

@[simp] theorem State.setRegsFrom_faultMark (s : State) (k : Nat) (bs : List Byte) : (s.setRegsFrom k bs).faultMark = s.faultMark := by
  induction bs generalizing s k with
  | nil => rfl
  | cons b bs ih => simp [State.setRegsFrom, ih]

@[simp] theorem State.setRegsFrom_draws (s : State) (k : Nat) (bs : List Byte) : (s.setRegsFrom k bs).draws = s.draws := by
  induction bs generalizing s k with
  | nil => rfl
  | cons b bs ih => simp [State.setRegsFrom, ih]

@[simp] theorem State.setRegsFrom_pending (s : State) (k : Nat) (bs : List Byte) : (s.setRegsFrom k bs).pending = s.pending := by
  induction bs generalizing s k with
  | nil => rfl
  | cons b bs ih => simp [State.setRegsFrom, ih]

/-! The driver's policy, signal by signal (60_exceptions.md R208) -/

@[simp] theorem Signal.pcAdvance_incrementPC : Signal.pcAdvance .incrementPC = 2#16 := rfl
@[simp] theorem Signal.isFault_incrementPC : Signal.isFault .incrementPC = false := rfl
@[simp] theorem Signal.pcAdvance_notIncrementPC : Signal.pcAdvance .notIncrementPC = 0#16 := rfl
@[simp] theorem Signal.isFault_notIncrementPC : Signal.isFault .notIncrementPC = false := rfl
@[simp] theorem Signal.pcAdvance_notImplemented : Signal.pcAdvance .notImplemented = 2#16 := rfl
@[simp] theorem Signal.isFault_notImplemented : Signal.isFault .notImplemented = true := rfl
@[simp] theorem Signal.pcAdvance_stackOverflow : Signal.pcAdvance .stackOverflow = 0#16 := rfl
@[simp] theorem Signal.isFault_stackOverflow : Signal.isFault .stackOverflow = true := rfl
@[simp] theorem Signal.pcAdvance_waitForKeyboard : Signal.pcAdvance .waitForKeyboard = 0#16 := rfl
@[simp] theorem Signal.isFault_waitForKeyboard : Signal.isFault .waitForKeyboard = false := rfl
@[simp] theorem Signal.pcAdvance_error : Signal.pcAdvance .error = 0#16 := rfl
@[simp] theorem Signal.isFault_error : Signal.isFault .error = true := rfl

end Sys2Proof.Machine
end

