-- ==== Sys2Proof/Laws/Decode.lean ====
section
/-! SUPPORT. The numbers behind words, fields and bytes, and the fields of the words the encoder builds. -/

namespace Sys2Proof

/-! The value of each layout of R82 and of each field of R81, as numbers. -/

theorem encAddr_toNat (op : BitVec 4) (a : Addr) : (encAddr op a).toNat = op.toNat * 4096 + a.toNat := by
  have := a.isLt
  rw [encAddr, BitVec.toNat_append, ← Nat.shiftLeft_add_eq_or_of_lt (by omega), Nat.shiftLeft_eq]

theorem encXKK_toNat (op : BitVec 4) (x : RegIdx) (kk : Byte) :
    (encXKK op x kk).toNat = op.toNat * 4096 + x.val * 256 + kk.toNat := by
  have := kk.isLt
  have := x.isLt
  rw [encXKK, BitVec.toNat_append, ← Nat.shiftLeft_add_eq_or_of_lt (by omega), BitVec.toNat_append,
    ← Nat.shiftLeft_add_eq_or_of_lt (by simp)]
  simp only [Nat.shiftLeft_eq, BitVec.toNat_ofFin]
  omega

theorem encXYN_toNat (op : BitVec 4) (x y : RegIdx) (n : BitVec 4) :
    (encXYN op x y n).toNat = op.toNat * 4096 + x.val * 256 + y.val * 16 + n.toNat := by
  have := n.isLt
  rw [encXYN, BitVec.toNat_append, ← Nat.shiftLeft_add_eq_or_of_lt (by omega), BitVec.toNat_append,
    ← Nat.shiftLeft_add_eq_or_of_lt (by simp), BitVec.toNat_append, ← Nat.shiftLeft_add_eq_or_of_lt (by simp)]
  simp only [Nat.shiftLeft_eq, BitVec.toNat_ofFin]
  omega

theorem wordOfBytes_toNat (a b : Byte) : (wordOfBytes a b).toNat = a.toNat * 256 + b.toNat := by
  have := b.isLt
  rw [wordOfBytes, BitVec.toNat_append, ← Nat.shiftLeft_add_eq_or_of_lt (by omega), Nat.shiftLeft_eq]

theorem opField_toNat (w : Word) : (opField w).toNat = w.toNat / 4096 % 16 := by
  simp [opField, BitVec.extractLsb'_toNat, Nat.shiftRight_eq_div_pow]

theorem xField_val (w : Word) : (xField w).val = w.toNat / 256 % 16 := by
  simp [xField, Nat.shiftRight_eq_div_pow]

theorem yField_val (w : Word) : (yField w).val = w.toNat / 16 % 16 := by
  simp [yField, Nat.shiftRight_eq_div_pow]

theorem nField_toNat (w : Word) : (nField w).toNat = w.toNat % 16 := by
  simp [nField, BitVec.extractLsb'_toNat, Nat.shiftRight_eq_div_pow]

theorem kkField_toNat (w : Word) : (kkField w).toNat = w.toNat % 256 := by
  simp [kkField, BitVec.extractLsb'_toNat, Nat.shiftRight_eq_div_pow]

theorem addrField_toNat (w : Word) : (addrField w).toNat = w.toNat % 4096 := by
  simp [addrField, BitVec.extractLsb'_toNat, Nat.shiftRight_eq_div_pow]

theorem firstByte_toNat (w : Word) : (firstByte w).toNat = w.toNat / 256 := by
  have := w.isLt
  simp [firstByte, BitVec.extractLsb'_toNat, Nat.shiftRight_eq_div_pow]
  omega

theorem secondByte_toNat (w : Word) : (secondByte w).toNat = w.toNat % 256 := by
  simp [secondByte, BitVec.extractLsb'_toNat, Nat.shiftRight_eq_div_pow]

/-! The fields of an encoded word. -/

theorem opField_encAddr (op : BitVec 4) (a : Addr) : opField (encAddr op a) = op :=
  BitVec.eq_of_toNat_eq (by rw [opField_toNat, encAddr_toNat]; omega)

theorem addrField_encAddr (op : BitVec 4) (a : Addr) : addrField (encAddr op a) = a :=
  BitVec.eq_of_toNat_eq (by rw [addrField_toNat, encAddr_toNat]; omega)

theorem opField_encXKK (op : BitVec 4) (x : RegIdx) (kk : Byte) : opField (encXKK op x kk) = op :=
  BitVec.eq_of_toNat_eq (by rw [opField_toNat, encXKK_toNat]; omega)

theorem xField_encXKK (op : BitVec 4) (x : RegIdx) (kk : Byte) : xField (encXKK op x kk) = x :=
  Fin.ext (by rw [xField_val, encXKK_toNat]; omega)

theorem kkField_encXKK (op : BitVec 4) (x : RegIdx) (kk : Byte) : kkField (encXKK op x kk) = kk :=
  BitVec.eq_of_toNat_eq (by rw [kkField_toNat, encXKK_toNat]; omega)

theorem opField_encXYN (op : BitVec 4) (x y : RegIdx) (n : BitVec 4) : opField (encXYN op x y n) = op :=
  BitVec.eq_of_toNat_eq (by rw [opField_toNat, encXYN_toNat]; omega)

theorem xField_encXYN (op : BitVec 4) (x y : RegIdx) (n : BitVec 4) : xField (encXYN op x y n) = x :=
  Fin.ext (by rw [xField_val, encXYN_toNat]; omega)

theorem yField_encXYN (op : BitVec 4) (x y : RegIdx) (n : BitVec 4) : yField (encXYN op x y n) = y :=
  Fin.ext (by rw [yField_val, encXYN_toNat]; omega)

theorem nField_encXYN (op : BitVec 4) (x y : RegIdx) (n : BitVec 4) : nField (encXYN op x y n) = n :=
  BitVec.eq_of_toNat_eq (by rw [nField_toNat, encXYN_toNat]; omega)

/-! A word is the encoding of its fields, in each layout. -/

theorem encAddr_fields (w : Word) : encAddr (opField w) (addrField w) = w :=
  BitVec.eq_of_toNat_eq (by rw [encAddr_toNat, opField_toNat, addrField_toNat]; omega)

theorem encXKK_fields (w : Word) : encXKK (opField w) (xField w) (kkField w) = w :=
  BitVec.eq_of_toNat_eq (by rw [encXKK_toNat, opField_toNat, xField_val, kkField_toNat]; omega)

theorem encXYN_fields (w : Word) : encXYN (opField w) (xField w) (yField w) (nField w) = w :=
  BitVec.eq_of_toNat_eq (by rw [encXYN_toNat, opField_toNat, xField_val, yField_val, nField_toNat]; omega)

/-! Words and their two bytes (20_memory.md R62). -/

@[simp] theorem wordOfBytes_bytes (w : Word) : wordOfBytes (firstByte w) (secondByte w) = w :=
  BitVec.eq_of_toNat_eq (by rw [wordOfBytes_toNat, firstByte_toNat, secondByte_toNat]; omega)

@[simp] theorem firstByte_wordOfBytes (a b : Byte) : firstByte (wordOfBytes a b) = a :=
  BitVec.eq_of_toNat_eq (by rw [firstByte_toNat, wordOfBytes_toNat]; omega)

@[simp] theorem secondByte_wordOfBytes (a b : Byte) : secondByte (wordOfBytes a b) = b :=
  BitVec.eq_of_toNat_eq (by rw [secondByte_toNat, wordOfBytes_toNat]; omega)

@[simp] theorem decodeBytes_bytes (w : Word) : decodeBytes (firstByte w) (secondByte w) = decode w := by
  simp [decodeBytes]

end Sys2Proof
end

