-- ==== Sys2Proof/Laws/Memory.lean ====
section
/-! SUPPORT. Memory: a read after a write, the canonical form, and what a run of one-byte stores does. -/

namespace Sys2Proof.Machine

theorem Memory.read_erase_same (c : Config) (m : Memory) (a : Nat) : Memory.read c (Memory.erase m a) a = unlisted c a := by
  induction m with
  | nil => rfl
  | cons cell rest ih =>
    by_cases h : cell.1 = a
    · simpa [Memory.erase, h] using ih
    · simpa [Memory.erase, Memory.read, h] using ih

theorem Memory.read_erase_other (c : Config) (m : Memory) {a a' : Nat} (h : a' ≠ a) :
    Memory.read c (Memory.erase m a) a' = Memory.read c m a' := by
  induction m with
  | nil => rfl
  | cons cell rest ih =>
    by_cases h1 : cell.1 = a
    · have h2 : cell.1 ≠ a' := by omega
      simpa [Memory.erase, Memory.read, h1, h2, Ne.symm h] using ih
    · by_cases h2 : cell.1 = a' <;> simp [Memory.erase, Memory.read, h1, h2, ih, h]

theorem Memory.mem_erase {m : Memory} {a : Nat} {cell : Host.Cell} :
    cell ∈ Memory.erase m a ↔ cell ∈ m ∧ cell.1 ≠ a := by
  induction m with
  | nil => simp [Memory.erase]
  | cons hd rest ih =>
    by_cases h : hd.1 = a <;> simp only [Memory.erase, h, if_true, if_false, List.mem_cons, ih] <;> aesop

theorem Memory.read_insert_same (c : Config) (m : Memory) (a : Nat) (b : Byte) (h : ∀ cell ∈ m, cell.1 ≠ a) :
    Memory.read c (Memory.insert m a b) a = b := by
  induction m with
  | nil => simp [Memory.insert, Memory.read]
  | cons hd rest ih =>
    have h1 : hd.1 ≠ a := h hd (by simp)
    have h2 := ih fun cell hc => h cell (by simp [hc])
    by_cases h3 : a < hd.1 <;> simp [Memory.insert, Memory.read, h1, h2, h3]

theorem Memory.read_insert_other (c : Config) (m : Memory) {a a' : Nat} (b : Byte) (h : a' ≠ a) :
    Memory.read c (Memory.insert m a b) a' = Memory.read c m a' := by
  induction m with
  | nil => simp [Memory.insert, Memory.read, h.symm]
  | cons hd rest ih =>
    by_cases h3 : a < hd.1 <;> simp [Memory.insert, Memory.read, h3, ih, h.symm]

/-- A read after a write to the same cell gives the byte written (20_memory.md R69). -/
@[simp] theorem Memory.read_write_same (c : Config) (m : Memory) (a : Nat) (b : Byte) :
    Memory.read c (Memory.write c m a b) a = b := by
  unfold Memory.write
  split
  · rename_i h; rw [Memory.read_erase_same, h]
  · exact Memory.read_insert_same c _ a b fun cell hc => (Memory.mem_erase.mp hc).2

/-- A write leaves every other cell alone. -/
theorem Memory.read_write_other (c : Config) (m : Memory) {a a' : Nat} (b : Byte) (h : a' ≠ a) :
    Memory.read c (Memory.write c m a b) a' = Memory.read c m a' := by
  unfold Memory.write
  split
  · exact Memory.read_erase_other c m h
  · rw [Memory.read_insert_other c _ b h, Memory.read_erase_other c m h]

theorem Memory.mem_insert {m : Memory} {a : Nat} {b : Byte} {cell : Host.Cell} :
    cell ∈ Memory.insert m a b ↔ cell = (a, b) ∨ cell ∈ m := by
  induction m with
  | nil => simp [Memory.insert]
  | cons hd rest ih => by_cases h : a < hd.1 <;> simp [Memory.insert, h, ih]; tauto

theorem Memory.erase_wf {c : Config} {m : Memory} (a : Nat) (h : Memory.wf c m) : Memory.wf c (Memory.erase m a) := by
  refine ⟨?_, fun cell hc => h.2 cell (Memory.mem_erase.mp hc).1⟩
  have hs := h.1
  clear h
  induction m with
  | nil => simp [Memory.erase]
  | cons hd rest ih =>
    rw [List.pairwise_cons] at hs
    by_cases h1 : hd.1 = a
    · simpa [Memory.erase, h1] using ih hs.2
    · simp only [Memory.erase, h1, if_false, List.pairwise_cons]
      exact ⟨fun cell hc => hs.1 cell (Memory.mem_erase.mp hc).1, ih hs.2⟩

theorem Memory.insert_sorted {m : Memory} {a : Nat} (b : Byte) (hs : m.Pairwise fun p q => p.1 < q.1)
    (hne : ∀ cell ∈ m, cell.1 ≠ a) : (Memory.insert m a b).Pairwise fun p q => p.1 < q.1 := by
  induction m with
  | nil => simp [Memory.insert]
  | cons hd rest ih =>
    have hd_ne : hd.1 ≠ a := hne hd (by simp)
    rw [List.pairwise_cons] at hs
    by_cases h1 : a < hd.1
    · rw [Memory.insert, if_pos h1, List.pairwise_cons, List.pairwise_cons]
      refine ⟨fun cell hc => ?_, hs⟩
      rcases List.mem_cons.mp hc with rfl | hc
      · exact h1
      · exact lt_trans h1 (hs.1 cell hc)
    · simp only [Memory.insert, h1, if_false, List.pairwise_cons]
      refine ⟨fun cell hc => ?_, ih hs.2 fun cell hc => hne cell (by simp [hc])⟩
      rcases Memory.mem_insert.mp hc with rfl | hc
      · show hd.1 < a
        omega
      · exact hs.1 cell hc

/-- A write keeps the canonical form. -/
theorem Memory.write_wf {c : Config} {m : Memory} {a : Nat} (b : Byte) (ha : a < 4096) (h : Memory.wf c m) :
    Memory.wf c (Memory.write c m a b) := by
  unfold Memory.write
  split
  · exact Memory.erase_wf a h
  · rename_i hb
    have he := Memory.erase_wf a h
    refine ⟨Memory.insert_sorted b he.1 fun cell hc => (Memory.mem_erase.mp hc).2, fun cell hc => ?_⟩
    rcases Memory.mem_insert.mp hc with rfl | hc
    · exact ⟨ha, hb⟩
    · exact he.2 cell hc

theorem memIndex_lt (a : Word) : memIndex a < 4096 := Nat.mod_lt _ (by omega)

/-- Reads depend on the configuration and the memory alone. -/
theorem State.readByte_congr {s t : State} (hc : t.cfg = s.cfg) (hm : t.mem = s.mem) (a : Word) :
    t.readByte a = s.readByte a := by
  simp [State.readByte, hc, hm]

/-- What one store does to every byte. -/
theorem State.readByte_writeByte (s : State) (a : Word) (b : Byte) (a' : Word) :
    (s.writeByte a b).readByte a' = if memIndex a' = memIndex a then b else s.readByte a' := by
  simp only [State.readByte, State.writeByte_cfg, State.writeByte_mem]
  split
  · rename_i h; rw [h, Memory.read_write_same]
  · rename_i h; exact Memory.read_write_other _ _ _ h

/-- How far a cell lies above a base address, going up and round (R60): the index of the byte stored there. -/
def offsetFrom (a a' : Word) : Nat := (a' - a).toNat % 4096

theorem memIndex_eq_iff_offset (a a' : Word) : memIndex a' = memIndex a ↔ offsetFrom a a' = 0 := by
  simp only [memIndex, offsetFrom, BitVec.toNat_sub]
  omega

theorem offsetFrom_succ {a a' : Word} (h : offsetFrom a a' ≠ 0) : offsetFrom a a' = offsetFrom (a + 1) a' + 1 := by
  have h1 : (1 : Word).toNat = 1 := rfl
  simp only [offsetFrom, BitVec.toNat_sub, BitVec.toNat_add, h1] at *
  omega

theorem offsetFrom_eq_zero_succ {a a' : Word} (h : offsetFrom a a' = 0) : offsetFrom (a + 1) a' = 4095 := by
  have h1 : (1 : Word).toNat = 1 := rfl
  simp only [offsetFrom, BitVec.toNat_sub, BitVec.toNat_add, h1] at *
  omega

theorem offsetFrom_add {a : Word} {k : Nat} (h : k < 4096) : offsetFrom a (a + BitVec.ofNat 16 k) = k := by
  simp only [offsetFrom, BitVec.toNat_sub, BitVec.toNat_add, BitVec.toNat_ofNat]
  omega

/-- Everything a run of stores does to memory: the byte at offset `k` from the base becomes the `k`-th byte stored, and
every other byte reads as before. -/
theorem State.readByte_storeBytes (s : State) (a : Word) (bs : List Byte) (hlen : bs.length ≤ 4096) (a' : Word) :
    (s.storeBytes a bs).readByte a' = (bs[offsetFrom a a']?).getD (s.readByte a') := by
  induction bs generalizing s a with
  | nil => simp [State.storeBytes]
  | cons b bs ih =>
    simp only [List.length_cons] at hlen
    rw [State.storeBytes, ih _ _ (by omega), State.readByte_writeByte]
    by_cases h : offsetFrom a a' = 0
    · have h2 : bs[offsetFrom (a + 1) a']? = none := by
        rw [offsetFrom_eq_zero_succ h]; exact List.getElem?_eq_none (by omega)
      rw [h2, Option.getD_none, if_pos ((memIndex_eq_iff_offset a a').mpr h), h]
      rfl
    · have h2 : memIndex a' ≠ memIndex a := fun e => h ((memIndex_eq_iff_offset a a').mp e)
      rw [if_neg h2, offsetFrom_succ h, List.getElem?_cons_succ]

/-- The `k`-th byte stored stands `k` cells above the base. -/
theorem State.readByte_storeBytes_at (s : State) (a : Word) (bs : List Byte) (hlen : bs.length ≤ 4096) (k : Nat)
    (h : k < bs.length) : (s.storeBytes a bs).readByte (a + BitVec.ofNat 16 k) = bs[k] := by
  rw [State.readByte_storeBytes s a bs hlen, offsetFrom_add (by omega), List.getElem?_eq_getElem h, Option.getD_some]

/-- A byte at none of the cells stored to reads as before. -/
theorem State.readByte_storeBytes_other (s : State) (a : Word) (bs : List Byte) (hlen : bs.length ≤ 4096) (a' : Word)
    (h : ∀ k, k < bs.length → memIndex a' ≠ memIndex (a + BitVec.ofNat 16 k)) :
    (s.storeBytes a bs).readByte a' = s.readByte a' := by
  rw [State.readByte_storeBytes s a bs hlen]
  by_cases hlt : offsetFrom a a' < bs.length
  · refine absurd ?_ (h _ hlt)
    simp only [memIndex, offsetFrom, BitVec.toNat_sub, BitVec.toNat_add, BitVec.toNat_ofNat]
    omega
  · rw [List.getElem?_eq_none (by omega), Option.getD_none]

/-- A run of stores keeps the canonical form. -/
theorem State.storeBytes_wf (s : State) (a : Word) (bs : List Byte) (h : Memory.wf s.cfg s.mem) :
    Memory.wf s.cfg (s.storeBytes a bs).mem := by
  induction bs generalizing s a with
  | nil => exact h
  | cons b bs ih => exact ih (s.writeByte a b) (a + 1) (Memory.write_wf b (memIndex_lt a) h)

@[simp] theorem State.loadBytes_length (s : State) (a : Word) (n : Nat) : (s.loadBytes a n).length = n := by
  simp [State.loadBytes]

@[simp] theorem State.loadBytes_getElem (s : State) (a : Word) (n k : Nat) (h : k < (s.loadBytes a n).length) :
    (s.loadBytes a n)[k] = s.readByte (a + BitVec.ofNat 16 k) := by
  simp [State.loadBytes]

/-- The memory after reset is in canonical form. -/
theorem State.resetWith_mem_wf (c : Config) : Memory.wf c (State.resetWith c).mem := by
  constructor <;> simp [State.resetWith]

/-- Memory after reset reads as the reset contents. -/
theorem State.resetWith_readByte (c : Config) (a : Word) : (State.resetWith c).readByte a = unlisted c (memIndex a) := rfl

/-- The `Reset` event leaves the memory of the reset state under the same configuration. -/
theorem resetEvent_readByte (s : State) (a : Word) :
    (resetEvent s).readByte a = (State.resetWith s.cfg).readByte a := rfl

end Sys2Proof.Machine
end

