-- ==== Sys2Proof/Laws/Regs.lean ====
section
/-! SUPPORT. Registers, keys, stack slots: what each write does to each read. -/

namespace Sys2Proof.Machine

theorem State.reg_setReg (s : State) (x r : RegIdx) (b : Byte) :
    (s.setReg x b).reg r = if r = x then b else s.reg r := by
  simp only [State.reg, State.setReg_v, Vector.getElem_set, Fin.ext_iff, eq_comm]

@[simp] theorem State.reg_setReg_same (s : State) (x : RegIdx) (b : Byte) : (s.setReg x b).reg x = b := by
  simp [State.reg_setReg]

/-- Reads depend on the register file alone. -/
theorem State.reg_congr {s t : State} (h : t.v = s.v) (r : RegIdx) : t.reg r = s.reg r := by simp [State.reg, h]

/-- The result and the flag of a flag-writing instruction: the flag is written last (44_family_8_alu.md R141). -/
theorem State.reg_setRegFlag (s : State) (d r : RegIdx) (b : Byte) (f : Bool) :
    (s.setRegFlag d b f).reg r = if r = flagReg then flagByte f else if r = d then b else s.reg r := by
  rw [State.setRegFlag, State.reg_setReg, State.reg_setReg]

/-- Everything a run of register writes does: register `k + j` becomes the `j`-th byte. -/
theorem State.reg_setRegsFrom (s : State) (k : Nat) (bs : List Byte) (h : k + bs.length ≤ 16) (r : RegIdx) :
    (s.setRegsFrom k bs).reg r = if r.val < k then s.reg r else (bs[r.val - k]?).getD (s.reg r) := by
  induction bs generalizing s k with
  | nil => simp [State.setRegsFrom]
  | cons b bs ih =>
    simp only [List.length_cons] at h
    rw [State.setRegsFrom, ih _ _ (by omega), State.reg_setReg]
    have hk : (Fin.ofNat 16 k).val = k := by simp [Fin.ofNat]; omega
    by_cases h1 : r.val < k
    · have h3 : r ≠ Fin.ofNat 16 k := fun e => by rw [e, hk] at h1; omega
      rw [if_pos h1, if_pos (by omega), if_neg h3]
    · by_cases h2 : r.val = k
      · have h3 : r = Fin.ofNat 16 k := Fin.ext (by rw [hk]; exact h2)
        rw [if_pos (by omega), if_pos h3, if_neg h1, h2, Nat.sub_self, List.getElem?_cons_zero, Option.getD_some]
      · have h3 : r ≠ Fin.ofNat 16 k := fun e => h2 (by rw [e, hk])
        have h4 : r.val - k = (r.val - (k + 1)) + 1 := by omega
        rw [if_neg h1, if_neg h3, if_neg (by omega), h4, List.getElem?_cons_succ]

@[simp] theorem State.regsUpTo_length (s : State) (x : RegIdx) : (s.regsUpTo x).length = x.val + 1 := by
  simp [State.regsUpTo]

theorem State.regsUpTo_getElem? (s : State) (x r : RegIdx) :
    (s.regsUpTo x)[r.val]? = if r ≤ x then some (s.reg r) else none := by
  have hr := r.isLt
  simp only [State.regsUpTo, State.reg, List.getElem?_take, Fin.le_def]
  split <;> split <;> first | omega | simp

theorem State.keyDown_setKey (s : State) (k j : Key) (b : Bool) :
    (s.setKey k b).keyDown j = if j = k then b else s.keyDown j := by
  simp only [State.keyDown, State.setKey_keys, Vector.getElem_set, Fin.ext_iff, eq_comm]

/-- A push writes the slot of the incremented pointer and no other. -/
theorem State.slot_push (s : State) (w : Word) (j : Fin 16) :
    (s.push w).slot j = if j = slotOf (s.sp + 1) then w else s.slot j := by
  simp only [State.slot, State.push_stack, Vector.getElem_set, Fin.ext_iff, eq_comm]

/-- The word on top after a push is the word pushed. -/
@[simp] theorem State.top_push (s : State) (w : Word) : (s.push w).top = w := by
  simp [State.top, State.slot_push]

theorem State.stackFull_iff (s : State) : s.stackFull = true ↔ 0x0F < (s.sp + 1).toNat := by simp [State.stackFull]

@[simp] theorem flagByte_true : flagByte true = 1 := rfl

@[simp] theorem flagByte_false : flagByte false = 0 := rfl

end Sys2Proof.Machine
end

