-- ==== Sys2Proof/Laws/Screen.lean ====
section
/-! SUPPORT. The framebuffer: what a toggle, a sprite row and a whole sprite do to each pixel and to the hit mark
(45_family_D_draw.md R160). -/

namespace Sys2Proof.Machine

theorem Screen.pixel_toggle (fb : Screen) (r r' : Fin 32) (c c' : Fin 64) :
    Screen.pixel (Screen.toggle fb r c) r' c' = if r' = r ∧ c' = c then !Screen.pixel fb r c else Screen.pixel fb r' c' := by
  simp only [Screen.pixel, Screen.toggle, Vector.getElem_set, Fin.ext_iff]
  by_cases h1 : r'.val = r.val
  · by_cases h2 : c'.val = c.val
    · simp [h1, h2]
    · simp [h1, h2, Ne.symm h2]
  · simp [h1, Ne.symm h1]

@[simp] theorem Screen.pixel_blank (r : Fin 32) (c : Fin 64) : Screen.pixel Screen.blank r c = false := by
  simp [Screen.pixel, Screen.blank]

/-- One sprite bit: only its own pixel can change. -/
theorem drawBit_pixel (b : Bool) (r : Fin 32) (c : Fin 64) (d : DrawState) (r' : Fin 32) (c' : Fin 64) :
    Screen.pixel (drawBit b r c d).fb r' c' = ((Screen.pixel d.fb r' c').xor (decide (r' = r) && (b && decide (c' = c)))) := by
  cases b
  · simp [drawBit]
  · simp only [drawBit, if_true, Screen.pixel_toggle]
    by_cases h1 : r' = r <;> by_cases h2 : c' = c <;> simp [h1, h2]

/-- One sprite bit records a hit exactly when it turns its pixel off. -/
theorem drawBit_hit (b : Bool) (r : Fin 32) (c : Fin 64) (d : DrawState) :
    (drawBit b r c d).hit = (d.hit || (b && Screen.pixel d.fb r c)) := by
  cases b <;> simp [drawBit]

/-- Whether bits `c` to `c + n - 1` of a sprite byte, drawn from column `x0`, hold a 1 at column `c'`. -/
def rowLit (byte : Byte) (x0 : Nat) : Nat → Nat → Fin 64 → Bool
  | 0, _, _ => false
  | n + 1, c, c' => (byte.getLsbD (7 - c) && decide (c' = Fin.ofNat 64 (x0 + c))) || rowLit byte x0 n (c + 1) c'

theorem rowLit_eq_true (byte : Byte) (x0 n c : Nat) (c' : Fin 64) :
    rowLit byte x0 n c c' = true ↔ ∃ j, c ≤ j ∧ j < c + n ∧ byte.getLsbD (7 - j) = true ∧ c' = Fin.ofNat 64 (x0 + j) := by
  induction n generalizing c with
  | zero => simp only [rowLit]; constructor <;> [exact fun h => absurd h (by decide); (rintro ⟨j, h1, h2, -⟩; omega)]
  | succ n ih =>
    rw [rowLit, Bool.or_eq_true, ih, Bool.and_eq_true, decide_eq_true_iff]
    constructor
    · rintro (⟨h1, h2⟩ | ⟨j, h1, h2, h3⟩)
      · exact ⟨c, le_refl c, by omega, h1, h2⟩
      · exact ⟨j, by omega, by omega, h3⟩
    · rintro ⟨j, h1, h2, h3⟩
      rcases Nat.eq_or_lt_of_le h1 with rfl | h1
      · exact .inl h3
      · exact .inr ⟨j, h1, by omega, h3⟩

/-- No pixel is visited twice in a row of at most 64 pixels (R160 corner case d). -/
theorem rowLit_later (byte : Byte) (x0 n c : Nat) (h : n < 64) : rowLit byte x0 n (c + 1) (Fin.ofNat 64 (x0 + c)) = false := by
  rw [Bool.eq_false_iff, ne_eq, rowLit_eq_true]
  rintro ⟨j, h1, h2, -, h3⟩
  have h4 := congrArg Fin.val h3
  simp only [Fin.ofNat] at h4
  omega

/-- What part of a sprite row does to every pixel. -/
theorem drawBits_pixel (byte : Byte) (r : Fin 32) (x0 n c : Nat) (hn : n ≤ 64) (d : DrawState) (r' : Fin 32) (c' : Fin 64) :
    Screen.pixel (drawBits byte r x0 n c d).fb r' c' =
      ((Screen.pixel d.fb r' c').xor (decide (r' = r) && rowLit byte x0 n c c')) := by
  induction n generalizing c d with
  | zero => simp [drawBits, rowLit]
  | succ n ih =>
    rw [drawBits, ih _ (by omega), drawBit_pixel, rowLit]
    by_cases hc : c' = Fin.ofNat 64 (x0 + c)
    · rw [hc, rowLit_later byte x0 n c (by omega)]
      simp
    · simp only [hc, decide_false, Bool.and_false, Bool.xor_false, Bool.false_or]

/-- Part of a sprite row records a hit exactly when it turns some pixel off. -/
theorem drawBits_hit (byte : Byte) (r : Fin 32) (x0 n c : Nat) (hn : n ≤ 64) (d : DrawState) :
    (drawBits byte r x0 n c d).hit = true ↔
      d.hit = true ∨ ∃ c', rowLit byte x0 n c c' = true ∧ Screen.pixel d.fb r c' = true := by
  induction n generalizing c d with
  | zero => simp [drawBits, rowLit]
  | succ n ih =>
    rw [drawBits, ih _ (by omega), drawBit_hit, Bool.or_eq_true, Bool.and_eq_true, or_assoc]
    refine or_congr_right ⟨?_, ?_⟩
    · rintro (⟨h1, h2⟩ | ⟨c', h1, h2⟩)
      · exact ⟨_, by rw [rowLit, h1]; simp, h2⟩
      · have hc : c' ≠ Fin.ofNat 64 (x0 + c) := fun e => by
          rw [e, rowLit_later byte x0 n c (by omega)] at h1; exact absurd h1 (by decide)
        rw [drawBit_pixel] at h2
        simp only [hc, decide_false, Bool.and_false, Bool.xor_false] at h2
        exact ⟨c', by rw [rowLit, h1, Bool.or_true], h2⟩
    · rintro ⟨c', h1, h2⟩
      by_cases hc : c' = Fin.ofNat 64 (x0 + c)
      · rw [rowLit, hc, rowLit_later byte x0 n c (by omega)] at h1
        simp only [decide_true, Bool.and_true, Bool.or_false] at h1
        exact .inl ⟨h1, hc ▸ h2⟩
      · rw [rowLit] at h1
        simp only [hc, decide_false, Bool.and_false, Bool.false_or] at h1
        refine .inr ⟨c', h1, ?_⟩
        rw [drawBit_pixel]
        simpa only [hc, decide_false, Bool.and_false, Bool.xor_false] using h2

/-- Whether a sprite drawn from row `y` and column `x0` holds a 1 at a pixel. -/
def rowsLit (x0 : Nat) : List Byte → Nat → Fin 32 → Fin 64 → Bool
  | [], _, _, _ => false
  | b :: bs, y, r', c' => (decide (r' = Fin.ofNat 32 y) && rowLit b x0 8 0 c') || rowsLit x0 bs (y + 1) r' c'

theorem rowsLit_eq_true (x0 : Nat) (bs : List Byte) (y : Nat) (r' : Fin 32) (c' : Fin 64) :
    rowsLit x0 bs y r' c' = true ↔
      ∃ k, ∃ h : k < bs.length, r' = Fin.ofNat 32 (y + k) ∧ rowLit bs[k] x0 8 0 c' = true := by
  induction bs generalizing y with
  | nil => simp [rowsLit]
  | cons b bs ih =>
    rw [rowsLit, Bool.or_eq_true, ih, Bool.and_eq_true, decide_eq_true_iff]
    constructor
    · rintro (⟨h1, h2⟩ | ⟨k, h, h1, h2⟩)
      · exact ⟨0, by simp, h1, h2⟩
      · exact ⟨k + 1, by simpa using h, by rw [h1]; congr 1; omega, h2⟩
    · rintro ⟨k, h, h1, h2⟩
      cases k with
      | zero => exact .inl ⟨h1, h2⟩
      | succ k => exact .inr ⟨k, by simpa using h, by rw [h1]; congr 1; omega, h2⟩

/-- No row is visited twice by a sprite of at most 32 rows (R160 corner case d). -/
theorem rowsLit_later (x0 : Nat) (bs : List Byte) (y : Nat) (h : bs.length < 32) (c' : Fin 64) :
    rowsLit x0 bs (y + 1) (Fin.ofNat 32 y) c' = false := by
  rw [Bool.eq_false_iff, ne_eq, rowsLit_eq_true]
  rintro ⟨k, hk, h1, -⟩
  have h2 := congrArg Fin.val h1
  simp only [Fin.ofNat] at h2
  omega

/-- What a sprite does to every pixel: the pixels where it holds a 1 are inverted, the others kept. -/
theorem drawRows_pixel (x0 : Nat) (bs : List Byte) (hlen : bs.length ≤ 32) (y : Nat) (d : DrawState) (r' : Fin 32)
    (c' : Fin 64) :
    Screen.pixel (drawRows x0 bs y d).fb r' c' = ((Screen.pixel d.fb r' c').xor (rowsLit x0 bs y r' c')) := by
  induction bs generalizing y d with
  | nil => simp [drawRows, rowsLit]
  | cons b bs ih =>
    simp only [List.length_cons] at hlen
    rw [drawRows, ih (by omega), drawRow, drawBits_pixel _ _ _ _ _ (by omega), rowsLit]
    by_cases hr : r' = Fin.ofNat 32 y
    · rw [hr, rowsLit_later x0 bs y (by omega)]
      simp
    · simp only [hr, decide_false, Bool.false_and, Bool.xor_false, Bool.false_or]

/-- A sprite records a hit exactly when it turns some pixel off. -/
theorem drawRows_hit (x0 : Nat) (bs : List Byte) (hlen : bs.length ≤ 32) (y : Nat) (d : DrawState) :
    (drawRows x0 bs y d).hit = true ↔
      d.hit = true ∨ ∃ r' c', rowsLit x0 bs y r' c' = true ∧ Screen.pixel d.fb r' c' = true := by
  induction bs generalizing y d with
  | nil => simp [drawRows, rowsLit]
  | cons b bs ih =>
    simp only [List.length_cons] at hlen
    rw [drawRows, ih (by omega), drawRow, drawBits_hit _ _ _ _ _ (by omega), or_assoc]
    refine or_congr_right ⟨?_, ?_⟩
    · rintro (⟨c', h1, h2⟩ | ⟨r', c', h1, h2⟩)
      · exact ⟨_, c', by rw [rowsLit, h1]; simp, h2⟩
      · have hr : r' ≠ Fin.ofNat 32 y := fun e => by
          rw [e, rowsLit_later x0 bs y (by omega)] at h1; exact absurd h1 (by decide)
        rw [drawBits_pixel _ _ _ _ _ (by omega)] at h2
        simp only [hr, decide_false, Bool.false_and, Bool.xor_false] at h2
        exact ⟨r', c', by rw [rowsLit, h1, Bool.or_true], h2⟩
    · rintro ⟨r', c', h1, h2⟩
      by_cases hr : r' = Fin.ofNat 32 y
      · rw [rowsLit, hr, rowsLit_later x0 bs y (by omega)] at h1
        simp only [decide_true, Bool.true_and, Bool.or_false] at h1
        exact .inl ⟨c', h1, hr ▸ h2⟩
      · rw [rowsLit] at h1
        simp only [hr, decide_false, Bool.false_and, Bool.false_or] at h1
        refine .inr ⟨r', c', h1, ?_⟩
        rw [drawBits_pixel _ _ _ _ _ (by omega)]
        simpa only [hr, decide_false, Bool.false_and, Bool.xor_false] using h2

end Sys2Proof.Machine
end

