-- ==== Sys2Proof/Laws/Exec.lean ====
section
/-! SUPPORT. What one instruction and one step can do. -/

namespace Sys2Proof.Machine

@[simp] theorem finish_eq (sig : Signal) (s : State) : finish sig s = .next (s.endTick sig) := rfl

/-- Every instruction ends its tick with a next state. -/
theorem exec_next (i : Instr) (s : State) : ∃ (sig : Signal) (u : State), exec i s = .next (u.endTick sig) := by
  cases i <;> first | exact ⟨_, _, rfl⟩ | skip
  simp only [exec, execCall]
  split <;> exact ⟨_, _, rfl⟩

/-- What one instruction does to the state that few instructions touch: who touches it, and how the report and the
model's mark go together. -/
structure ExecFrame (i : Instr) (s t : State) : Prop where
  stack : ¬ SameStack s t → i = .ret ∨ ∃ addr, i = .call addr
  screen : t.fb ≠ s.fb → i = .cls ∨ ∃ x y n, i = .drw x y n
  delay : t.dt ≠ s.dt → ∃ x, i = .ldDTVx x
  sound : t.st ≠ s.st → ∃ x, i = .ldSTVx x
  latch : t.waiting ≠ s.waiting → ∃ x, i = .ldVxK x
  memory : t.mem ≠ s.mem → ∃ x, i = .ldB x ∨ i = .storeRegs x
  keys : t.keys = s.keys
  config : t.cfg = s.cfg
  schedule : t.pending = s.pending
  report : t.status ≠ .error
  wait : (∃ x, i = .ldVxK x) → t.status = .waitForKeyboard
  mark : t.faultMark = (s.faultMark || t.status.isFault)

theorem exec_frame (i : Instr) (s t : State) (h : exec i s = .next t) : ExecFrame i s t := by
  cases i
  case call =>
    simp only [exec, execCall] at h
    split at h <;> cases h <;> constructor <;> simp [SameStack]
  case seByte | sneByte | seReg | sneReg | skp | sknp =>
    simp only [exec, execSeByte, execSneByte, execSeReg, execSneReg, execSkp, execSknp, skipIf] at h
    split at h <;> cases h <;> constructor <;> simp [SameStack]
  all_goals (cases h; constructor <;> simp [SameStack])

/-- What a tick can be: a wait reported again, an instruction, or an unimplemented word. -/
theorem tick_cases (s : State) :
    (s.waiting = true ∧ tick s = .next (s.endTick .waitForKeyboard)) ∨
    (∃ i, s.waiting = false ∧ s.fetched = .instr i ∧ tick s = exec i s) ∨
    (∃ u, s.waiting = false ∧ s.fetched = .unimplemented u ∧ tick s = .next (s.endTick .notImplemented)) := by
  cases hw : s.waiting with
  | true => exact .inl ⟨rfl, by simp [tick, hw]⟩
  | false =>
    cases hf : s.fetched with
    | instr i => exact .inr (.inl ⟨i, rfl, rfl, by simp [tick, hw, hf, runDecoded]⟩)
    | unimplemented u => exact .inr (.inr ⟨u, rfl, rfl, by simp [tick, hw, hf, runDecoded, unimplementedWord]⟩)

/-- Every tick answers a next state. -/
theorem tick_next (s : State) : ∃ t, tick s = .next t := by
  rcases tick_cases s with ⟨-, h⟩ | ⟨i, -, -, h⟩ | ⟨u, -, -, h⟩
  · exact ⟨_, h⟩
  · obtain ⟨sig, t, ht⟩ := exec_next i s
    exact ⟨_, h.trans ht⟩
  · exact ⟨_, h⟩

/-- Everything one step can do: the host's next event, case by case. -/
theorem step_cases {s t : State} (h : step s = .next t) :
    (s.nextEvent = .reset ∧ t = resetEvent s.takeEvent) ∨
    (∃ bytes, s.nextEvent = .loadProgram bytes ∧ programFits bytes = true ∧ t = s.takeEvent.storeBytes 0x200 bytes) ∨
    (s.nextEvent = .tick ∧ tick s.takeEvent = .next t) ∨
    (s.nextEvent = .timerTick ∧ t = timerTick s.takeEvent) ∨
    (∃ k, s.nextEvent = .keyPress k ∧ t = keyPress k s.takeEvent) ∨
    (∃ k, s.nextEvent = .keyRelease k ∧ t = keyRelease k s.takeEvent) := by
  unfold step at h
  cases he : s.nextEvent with
  | reset => rw [he] at h; simp [applyEvent] at h; exact .inl ⟨rfl, h.symm⟩
  | loadProgram bytes =>
    rw [he] at h
    simp only [applyEvent, loadProgram] at h
    split at h
    · rename_i hf; cases h; exact .inr (.inl ⟨bytes, rfl, hf, rfl⟩)
    · cases h
  | tick => rw [he] at h; exact .inr (.inr (.inl ⟨rfl, h⟩))
  | timerTick => rw [he] at h; simp [applyEvent] at h; exact .inr (.inr (.inr (.inl ⟨rfl, h.symm⟩)))
  | keyPress k => rw [he] at h; simp [applyEvent] at h; exact .inr (.inr (.inr (.inr (.inl ⟨k, rfl, h.symm⟩))))
  | keyRelease k => rw [he] at h; simp [applyEvent] at h; exact .inr (.inr (.inr (.inr (.inr ⟨k, rfl, h.symm⟩))))

end Sys2Proof.Machine
end

