-- ==== Sys2Proof/Laws/PerInstr.lean ====
section
/-! SUPPORT. Statements about every instruction as syntax, one lemma per constructor. Family MatchesRow: the word of an
instruction is a word of its row in the opcode map (30_encoding.md R86: "a word `w` is the row's instruction iff
`w & mask == match`"). -/

namespace Sys2Proof

/-- The masks of R86, seen through the layouts of R82: what each keeps of a word. -/
theorem encAddr_and_family (op : BitVec 4) (a : Addr) : encAddr op a &&& 0xF000 = encAddr op 0 := by
  have h : (0xF000 : Word) = (0xF#4 ++ 0x000#12 : BitVec 16) := by decide
  rw [h, encAddr, encAddr, BitVec.and_append, BitVec.and_zero]
  congr 1
  exact BitVec.and_allOnes

theorem encXKK_and_family (op : BitVec 4) (x : RegIdx) (kk : Byte) : encXKK op x kk &&& 0xF000 = encXKK op 0 0 := by
  have h : (0xF000 : Word) = (0xF#4 ++ 0x0#4 ++ 0x00#8 : BitVec 16) := by decide
  rw [h, encXKK, encXKK, BitVec.and_append, BitVec.and_append, BitVec.and_zero, BitVec.and_zero]
  congr 2
  exact BitVec.and_allOnes

theorem encXKK_and_sub (op : BitVec 4) (x : RegIdx) (kk : Byte) : encXKK op x kk &&& 0xF0FF = encXKK op 0 kk := by
  have h : (0xF0FF : Word) = (0xF#4 ++ 0x0#4 ++ 0xFF#8 : BitVec 16) := by decide
  rw [h, encXKK, encXKK, BitVec.and_append, BitVec.and_append, BitVec.and_zero]
  congr 1
  · congr 1
    exact BitVec.and_allOnes
  · exact BitVec.and_allOnes

theorem encXYN_and_family (op : BitVec 4) (x y : RegIdx) (n : BitVec 4) :
    encXYN op x y n &&& 0xF000 = encXYN op 0 0 0 := by
  have h : (0xF000 : Word) = (0xF#4 ++ 0x0#4 ++ 0x0#4 ++ 0x0#4 : BitVec 16) := by decide
  rw [h, encXYN, encXYN, BitVec.and_append, BitVec.and_append, BitVec.and_append, BitVec.and_zero, BitVec.and_zero,
    BitVec.and_zero]
  congr 3
  exact BitVec.and_allOnes

theorem encXYN_and_sub (op : BitVec 4) (x y : RegIdx) (n : BitVec 4) :
    encXYN op x y n &&& 0xF00F = encXYN op 0 0 n := by
  have h : (0xF00F : Word) = (0xF#4 ++ 0x0#4 ++ 0x0#4 ++ 0xF#4 : BitVec 16) := by decide
  rw [h, encXYN, encXYN, BitVec.and_append, BitVec.and_append, BitVec.and_append, BitVec.and_zero, BitVec.and_zero]
  congr 1
  · congr 2
    exact BitVec.and_allOnes
  · exact BitVec.and_allOnes

namespace Laws.MatchesRow

/-- The word of `i` is a word of its row. -/
def Statement (i : Instr) : Prop := encode i &&& i.row.1 = i.row.2

theorem cls : Statement .cls := rfl

theorem ret : Statement .ret := rfl

theorem jp (addr : Addr) : Statement (.jp addr) := (encAddr_and_family _ _).trans rfl

theorem call (addr : Addr) : Statement (.call addr) := (encAddr_and_family _ _).trans rfl

theorem seByte (x : RegIdx) (kk : Byte) : Statement (.seByte x kk) := (encXKK_and_family _ _ _).trans rfl

theorem sneByte (x : RegIdx) (kk : Byte) : Statement (.sneByte x kk) := (encXKK_and_family _ _ _).trans rfl

theorem seReg (x y : RegIdx) (n : BitVec 4) : Statement (.seReg x y n) := (encXYN_and_family _ _ _ _).trans rfl

theorem ldByte (x : RegIdx) (kk : Byte) : Statement (.ldByte x kk) := (encXKK_and_family _ _ _).trans rfl

theorem addByte (x : RegIdx) (kk : Byte) : Statement (.addByte x kk) := (encXKK_and_family _ _ _).trans rfl

theorem ldReg (x y : RegIdx) : Statement (.ldReg x y) := (encXYN_and_sub _ _ _ _).trans rfl

theorem orReg (x y : RegIdx) : Statement (.orReg x y) := (encXYN_and_sub _ _ _ _).trans rfl

theorem andReg (x y : RegIdx) : Statement (.andReg x y) := (encXYN_and_sub _ _ _ _).trans rfl

theorem xorReg (x y : RegIdx) : Statement (.xorReg x y) := (encXYN_and_sub _ _ _ _).trans rfl

theorem addReg (x y : RegIdx) : Statement (.addReg x y) := (encXYN_and_sub _ _ _ _).trans rfl

theorem sub (x y : RegIdx) : Statement (.sub x y) := (encXYN_and_sub _ _ _ _).trans rfl

theorem shr (x y : RegIdx) : Statement (.shr x y) := (encXYN_and_sub _ _ _ _).trans rfl

theorem subn (x y : RegIdx) : Statement (.subn x y) := (encXYN_and_sub _ _ _ _).trans rfl

theorem shl (x y : RegIdx) : Statement (.shl x y) := (encXYN_and_sub _ _ _ _).trans rfl

theorem sneReg (x y : RegIdx) (n : BitVec 4) : Statement (.sneReg x y n) := (encXYN_and_family _ _ _ _).trans rfl

theorem ldI (addr : Addr) : Statement (.ldI addr) := (encAddr_and_family _ _).trans rfl

theorem jpV0 (addr : Addr) : Statement (.jpV0 addr) := (encAddr_and_family _ _).trans rfl

theorem rnd (x : RegIdx) (kk : Byte) : Statement (.rnd x kk) := (encXKK_and_family _ _ _).trans rfl

theorem drw (x y : RegIdx) (n : Fin 16) : Statement (.drw x y n) := (encXYN_and_family _ _ _ _).trans rfl

theorem skp (x : RegIdx) : Statement (.skp x) := (encXKK_and_sub _ _ _).trans rfl

theorem sknp (x : RegIdx) : Statement (.sknp x) := (encXKK_and_sub _ _ _).trans rfl

theorem ldVxDT (x : RegIdx) : Statement (.ldVxDT x) := (encXKK_and_sub _ _ _).trans rfl

theorem ldVxK (x : RegIdx) : Statement (.ldVxK x) := (encXKK_and_sub _ _ _).trans rfl

theorem ldDTVx (x : RegIdx) : Statement (.ldDTVx x) := (encXKK_and_sub _ _ _).trans rfl

theorem ldSTVx (x : RegIdx) : Statement (.ldSTVx x) := (encXKK_and_sub _ _ _).trans rfl

theorem addI (x : RegIdx) : Statement (.addI x) := (encXKK_and_sub _ _ _).trans rfl

theorem ldF (x : RegIdx) : Statement (.ldF x) := (encXKK_and_sub _ _ _).trans rfl

theorem ldB (x : RegIdx) : Statement (.ldB x) := (encXKK_and_sub _ _ _).trans rfl

theorem storeRegs (x : RegIdx) : Statement (.storeRegs x) := (encXKK_and_sub _ _ _).trans rfl

theorem loadRegs (x : RegIdx) : Statement (.loadRegs x) := (encXKK_and_sub _ _ _).trans rfl

end Laws.MatchesRow

end Sys2Proof
end

