-- ==== Sys2Proof/Laws/Shapes.lean ====
section
/-! SUPPORT. The shared shapes of the meanings: what an instruction that ends its tick over one shared operation leaves
alone. -/

namespace Sys2Proof.Machine

/-- An instruction that writes one register and ends with `IncrementPC`. -/
theorem setReg_endTick_frame (s : State) (x : RegIdx) (b : Byte) :
    ((s.setReg x b).endTick .incrementPC).reg x = b ∧ RegsKeptBut (fun r => r = x) s ((s.setReg x b).endTick .incrementPC) ∧
      AdvancedTwo s ((s.setReg x b).endTick .incrementPC) ∧ KeptButRegs s ((s.setReg x b).endTick .incrementPC) ∧
      ((s.setReg x b).endTick .incrementPC).draws = s.draws := by
  refine ⟨State.reg_setReg_same s x b, fun r hr => (State.reg_setReg s x r b).trans (if_neg hr), ⟨rfl, rfl⟩,
    ⟨rfl, ⟨rfl, rfl⟩, ⟨rfl, rfl⟩, rfl, fun _ => rfl, ⟨rfl, rfl⟩, ⟨rfl, rfl, rfl⟩, ?_⟩, rfl⟩
  simp

/-- An instruction that writes one register, then the flag, and ends with `IncrementPC` (44_family_8_alu.md R141). -/
theorem setRegFlag_endTick_frame (s : State) (d : RegIdx) (b : Byte) (f : Bool) :
    (d ≠ flagReg → ((s.setRegFlag d b f).endTick .incrementPC).reg d = b) ∧
      ((s.setRegFlag d b f).endTick .incrementPC).reg flagReg = flagByte f ∧
      RegsKeptBut (fun r => r = d ∨ r = flagReg) s ((s.setRegFlag d b f).endTick .incrementPC) ∧
      AdvancedTwo s ((s.setRegFlag d b f).endTick .incrementPC) ∧
      KeptButRegs s ((s.setRegFlag d b f).endTick .incrementPC) ∧
      ((s.setRegFlag d b f).endTick .incrementPC).draws = s.draws := by
  refine ⟨fun h => (State.reg_setRegFlag s d d b f).trans (by simp [h]),
    (State.reg_setRegFlag s d flagReg b f).trans (by simp), fun r hr => ?_, ⟨rfl, rfl⟩,
    ⟨rfl, ⟨rfl, rfl⟩, ⟨rfl, rfl⟩, rfl, fun _ => rfl, ⟨rfl, rfl⟩, ⟨rfl, rfl, rfl⟩, ?_⟩, rfl⟩
  · rw [not_or] at hr
    exact (State.reg_setRegFlag s d r b f).trans (by rw [if_neg hr.2, if_neg hr.1])
  · simp

/-- An instruction that writes `PC` alone and ends with a signal that is no fault. -/
theorem setPc_endTick_frame (s : State) (a : Word) (sig : Signal) (h : sig.isFault = false) :
    ((s.setPc a).endTick sig).pc = a + sig.pcAdvance ∧ ((s.setPc a).endTick sig).status = sig ∧
      KeptButPc s ((s.setPc a).endTick sig) := by
  refine ⟨rfl, rfl, fun _ _ => rfl,
    ⟨rfl, ⟨rfl, rfl⟩, ⟨rfl, rfl⟩, rfl, fun _ => rfl, ⟨rfl, rfl⟩, ⟨rfl, rfl, rfl⟩, ?_⟩, rfl⟩
  simp [h]

/-- An instruction that stores bytes and ends with `IncrementPC`. -/
theorem storeBytes_endTick_frame (s : State) (a : Word) (bs : List Byte) :
    AdvancedTwo s ((s.storeBytes a bs).endTick .incrementPC) ∧ KeptButMemory s ((s.storeBytes a bs).endTick .incrementPC) := by
  refine ⟨⟨?_, rfl⟩, fun r _ => ?_, ?_, ⟨?_, ?_⟩, ⟨?_, ?_⟩, ?_, ⟨?_, ?_⟩, ⟨?_, ?_, ?_⟩, ?_, ?_⟩ <;> simp [State.reg]

/-- What Fx65 loads: register `r` up to `x` takes the byte at `I + r`, the others are kept. -/
theorem State.reg_loadRegs (s : State) (x r : RegIdx) :
    (s.setRegsFrom 0 (s.loadBytes s.i (x.val + 1))).reg r =
      if r ≤ x then s.readByte (s.i + BitVec.ofNat 16 r.val) else s.reg r := by
  rw [State.reg_setRegsFrom _ _ _ (by simp), if_neg (by omega), Nat.sub_zero]
  split
  · rename_i hr
    have h : r.val < (s.loadBytes s.i (x.val + 1)).length := by
      rw [State.loadBytes_length]; exact Nat.lt_succ_of_le (Fin.le_def.mp hr)
    rw [List.getElem?_eq_getElem h, Option.getD_some, State.loadBytes_getElem]
  · rename_i hr
    rw [List.getElem?_eq_none, Option.getD_none]
    rw [State.loadBytes_length]
    rw [Fin.le_def] at hr
    omega

/-- The rows the draw loop covers are the pixels of the sprite as R160 gives them. -/
theorem rowsLit_iff_spriteLit (s : State) (x y : RegIdx) (n : Fin 16) (r : Fin 32) (c : Fin 64) :
    rowsLit (s.startCol x) (s.loadBytes s.i n.val) (s.startRow y) r c = true ↔ s.spriteLit x y n r c := by
  rw [rowsLit_eq_true]
  simp only [rowLit_eq_true, State.loadBytes_getElem, State.loadBytes_length, State.spriteLit, Fin.ext_iff, Fin.ofNat,
    State.startCol, State.startRow]
  constructor
  · rintro ⟨k, hk, h1, j, -, hj, h2, h3⟩
    exact ⟨k, hk, j, by omega, h1, h3, h2⟩
  · rintro ⟨k, hk, j, hj, h1, h3, h2⟩
    exact ⟨k, hk, h1, j, by omega, by omega, h2, h3⟩

end Sys2Proof.Machine
end

