-- ==== Sys2Proof/Tests/Slice0.lean ====
section
/-! SUPPORT. The model's own tests: ill-formed terms refused, every constructor's word written out from its encoding, one or
two steps per instruction with the values of spec/95_test_vectors.md (the vector's id stands before each), and a witness
for the hypotheses of each statement that has any. -/

namespace Sys2Proof.Tests

open Sys2Proof Sys2Proof.Machine

/-! ## Well-formedness (WellFormed.lean) -/

theorem test_wellFormed_refuses_seReg_low_nibble : Instr.wellFormed (.seReg 1 2 7) = false := by decide

theorem test_wellFormed_refuses_sneReg_low_nibble : Instr.wellFormed (.sneReg 1 2 0xF) = false := by decide

theorem test_wellFormed_takes_canonical : Instr.wellFormed (.seReg 1 2 0) = true := by decide

theorem test_programFits_refuses_3585_bytes : programFits (List.replicate 3585 0) = false := by
  rw [programFits, List.length_replicate]; decide

theorem test_programFits_takes_3584_bytes : programFits (List.replicate 3584 0) = true := by
  rw [programFits, List.length_replicate]; decide

/-! ## Decoding: the 16 bits of each row of 30_encoding.md R82 and R86, from bit 15 to bit 0 -/

theorem test_decode_cls : decode 0b0000_0000_1110_0000 = .instr .cls := by decide
theorem test_decode_ret : decode 0b0000_0000_1110_1110 = .instr .ret := by decide
theorem test_decode_jp : decode 0b0001_1010_1011_1100 = .instr (.jp 0xABC) := by decide
theorem test_decode_call : decode 0b0010_0100_0101_0110 = .instr (.call 0x456) := by decide
theorem test_decode_seByte : decode 0b0011_0001_0100_0010 = .instr (.seByte 1 0x42) := by decide
theorem test_decode_sneByte : decode 0b0100_0001_0100_0010 = .instr (.sneByte 1 0x42) := by decide
theorem test_decode_seReg : decode 0b0101_0001_0010_0111 = .instr (.seReg 1 2 7) := by decide
theorem test_decode_ldByte : decode 0b0110_0101_0010_0000 = .instr (.ldByte 5 0x20) := by decide
theorem test_decode_addByte : decode 0b0111_0000_0000_0101 = .instr (.addByte 0 0x05) := by decide
theorem test_decode_ldReg : decode 0b1000_0001_0010_0000 = .instr (.ldReg 1 2) := by decide
theorem test_decode_orReg : decode 0b1000_0001_0010_0001 = .instr (.orReg 1 2) := by decide
theorem test_decode_andReg : decode 0b1000_0001_0010_0010 = .instr (.andReg 1 2) := by decide
theorem test_decode_xorReg : decode 0b1000_0001_0010_0011 = .instr (.xorReg 1 2) := by decide
theorem test_decode_addReg : decode 0b1000_0001_0010_0100 = .instr (.addReg 1 2) := by decide
theorem test_decode_sub : decode 0b1000_0001_0010_0101 = .instr (.sub 1 2) := by decide
theorem test_decode_shr : decode 0b1000_0001_0010_0110 = .instr (.shr 1 2) := by decide
theorem test_decode_subn : decode 0b1000_0001_0010_0111 = .instr (.subn 1 2) := by decide
theorem test_decode_shl : decode 0b1000_0001_0010_1110 = .instr (.shl 1 2) := by decide
theorem test_decode_sneReg : decode 0b1001_0001_0010_1111 = .instr (.sneReg 1 2 0xF) := by decide
theorem test_decode_ldI : decode 0b1010_0001_0010_0011 = .instr (.ldI 0x123) := by decide
theorem test_decode_jpV0 : decode 0b1011_0011_0000_0000 = .instr (.jpV0 0x300) := by decide
theorem test_decode_rnd : decode 0b1100_0001_0000_1111 = .instr (.rnd 1 0x0F) := by decide
theorem test_decode_drw : decode 0b1101_0101_1010_0111 = .instr (.drw 5 0xA 7) := by decide
theorem test_decode_skp : decode 0b1110_0001_1001_1110 = .instr (.skp 1) := by decide
theorem test_decode_sknp : decode 0b1110_0001_1010_0001 = .instr (.sknp 1) := by decide
theorem test_decode_ldVxDT : decode 0b1111_0001_0000_0111 = .instr (.ldVxDT 1) := by decide
theorem test_decode_ldVxK : decode 0b1111_0001_0000_1010 = .instr (.ldVxK 1) := by decide
theorem test_decode_ldDTVx : decode 0b1111_0001_0001_0101 = .instr (.ldDTVx 1) := by decide
theorem test_decode_ldSTVx : decode 0b1111_0001_0001_1000 = .instr (.ldSTVx 1) := by decide
theorem test_decode_addI : decode 0b1111_0001_0001_1110 = .instr (.addI 1) := by decide
theorem test_decode_ldF : decode 0b1111_0001_0010_1001 = .instr (.ldF 1) := by decide
theorem test_decode_ldB : decode 0b1111_0001_0011_0011 = .instr (.ldB 1) := by decide
theorem test_decode_storeRegs : decode 0b1111_0011_0101_0101 = .instr (.storeRegs 3) := by decide
theorem test_decode_loadRegs : decode 0b1111_0010_0110_0101 = .instr (.loadRegs 2) := by decide

/-- Z8, A39, K20, F34: words next to implemented ones are refused, each by the name of its sub-space. -/
theorem test_decode_unimplemented :
    decode 0x01E0 = .unimplemented .family0 ∧ decode 0x00EF = .unimplemented .family0 ∧
    decode 0x812F = .unimplemented .family8 ∧ decode 0xE1A0 = .unimplemented .familyE ∧
    decode 0xF130 = .unimplemented .familyF := by decide

/-- X5: the high byte of a word stands first in memory. -/
theorem test_byte_order : firstByte 0x6520 = 0x65 ∧ secondByte 0x6520 = 0x20 ∧ decodeTableWord 16 0x6520 = some (.ldByte 5 0x20) := by
  decide

/-! ## One step -/

/-- Whether a step answers a next state of which `p` holds. -/
def after (o : Host.Outcome State Fault Refusal) (p : State → Bool) : Bool :=
  match o with
  | .next t => p t
  | .fault _ => false
  | .refused _ => false

/-- The start state of a vector: the reset state with some registers set. -/
def start (rs : List (RegIdx × Byte)) : State := rs.foldl (fun s r => s.setReg r.1 r.2) State.reset

/-- The start state with `I` set and bytes stored from it. -/
def startMem (rs : List (RegIdx × Byte)) (i : Word) (bs : List Byte) : State := { (start rs).storeBytes i bs with i := i }

/-- The start state with a word at `PC` and `PC` set. -/
def startAt (s : State) (pc : Word) (w : Nat) : State := ({ s with pc := pc }).withFetchWord 16 w

/-- Z1, Z2. -/
theorem test_cls : after (exec .cls (({ State.reset with fb := Screen.toggle Screen.blank 31 63 }).setReg 15 1))
    (fun t => !t.pixel 31 63 && t.reg 15 == 1 && t.pc == 0x202) = true := by decide

/-- Z3. -/
theorem test_ret : after (step (startAt { State.reset with sp := 0, stack := State.reset.stack.set 0 0x0204 } 0x20C 0x00EE))
    (fun t => t.pc == 0x0206 && t.sp == 0xFF && t.slot 0 == 0x0204) = true := by decide

/-- Z6: an empty stack. -/
theorem test_ret_empty : after (exec .ret { State.reset with pc := 0x20C, stack := State.reset.stack.set 15 0x0456 })
    (fun t => t.pc == 0x0458 && t.sp == 0xFE && t.status == .incrementPC) = true := by decide

/-- J2: the intermediate 0xFFFE is never visible. -/
theorem test_jp_zero : after (exec (.jp 0) State.reset) (fun t => t.pc == 0 && t.status == .incrementPC) = true := by decide

/-- J6. -/
theorem test_call : after (step (startAt State.reset 0x234 0x2456))
    (fun t => t.sp == 0 && t.slot 0 == 0x0234 && t.pc == 0x0456 && t.status == .notIncrementPC) = true := by decide

/-- J8: the seventeenth frame. -/
theorem test_call_full : after (exec (.call 0x456) { State.reset with pc := 0x234, sp := 0x0F })
    (fun t => t.sp == 0x0F && t.pc == 0x0234 && t.status == .stackOverflow && t.faultMark) = true := by decide

/-- J12: the sum is not reduced to 12 bits. -/
theorem test_jpV0 : after (exec (.jpV0 0xFFF) (start [(0, 0x02)])) (fun t => t.pc == 0x1001) = true := by decide

/-- J18: the fetch wraps from 0xFFF to 0x000, where the font stands. -/
theorem test_fetch_wraps : after (step ({ State.reset with pc := 0x0FFF }.writeByte 0x0FFF 0x6A))
    (fun t => t.reg 0xA == 0xF0 && t.pc == 0x1001) = true := by decide

/-- K1, K2. -/
theorem test_seByte : after (exec (.seByte 1 0x42) (start [(1, 0x42)])) (fun t => t.pc == 0x204) = true ∧
    after (exec (.seByte 1 0x42) (start [(1, 0x43)])) (fun t => t.pc == 0x202) = true := by decide

/-- K3, K4. -/
theorem test_sneByte : after (exec (.sneByte 1 0x42) (start [(1, 0x42)])) (fun t => t.pc == 0x202) = true ∧
    after (exec (.sneByte 1 0x42) (start [(1, 0x43)])) (fun t => t.pc == 0x204) = true := by decide

/-- K8: the low nibble is ignored. -/
theorem test_seReg : after (step (startAt (start [(1, 7), (2, 7)]) 0x200 0x5127)) (fun t => t.pc == 0x204) = true := by decide

/-- K12: the low nibble is ignored. -/
theorem test_sneReg : after (step (startAt (start [(1, 7), (2, 8)]) 0x200 0x912F)) (fun t => t.pc == 0x204) = true := by decide

/-- L1 (source example E1). -/
theorem test_ldByte : after (step (State.reset.withFetchWord 16 0x6520)) (fun t => t.reg 5 == 0x20 && t.pc == 0x202) = true := by
  decide

/-- L5. -/
theorem test_addByte : after (exec (.addByte 0 0x01) (start [(0, 0xFF)])) (fun t => t.reg 0 == 0 && t.reg 15 == 0) = true := by
  decide

/-- L9: bits 15 to 12 are cleared. -/
theorem test_ldI : after (exec (.ldI 0xFFF) { State.reset with i := 0x1234 }) (fun t => t.i == 0x0FFF) = true := by decide

/-- L11: a zero mask gives 0 whatever the draw. -/
theorem test_rnd_zero_mask (s : State) : after (exec (.rnd 1 0x00) s) (fun t => t.reg 1 == 0) = true := by
  simp [exec, execRnd, after, (setReg_endTick_frame _ _ _).1]

/-- A1. -/
theorem test_ldReg : after (exec (.ldReg 1 2) (start [(2, 0x5A)])) (fun t => t.reg 1 == 0x5A && t.reg 2 == 0x5A) = true := by decide

/-- A32. -/
theorem test_orReg : after (exec (.orReg 1 2) (start [(1, 0xF0), (2, 0x0F), (15, 1)]))
    (fun t => t.reg 1 == 0xFF && t.reg 15 == 1) = true := by decide

/-- A33. -/
theorem test_andReg : after (exec (.andReg 1 2) (start [(1, 0xF0), (2, 0x3C), (15, 1)]))
    (fun t => t.reg 1 == 0x30 && t.reg 15 == 1) = true := by decide

/-- A34. -/
theorem test_xorReg : after (exec (.xorReg 1 2) (start [(1, 0xFF), (2, 0x0F), (15, 1)]))
    (fun t => t.reg 1 == 0xF0 && t.reg 15 == 1) = true := by decide

/-- A3. -/
theorem test_addReg : after (exec (.addReg 0 1) (start [(0, 0xFF), (1, 0x01)])) (fun t => t.reg 0 == 0 && t.reg 15 == 1) = true := by
  decide

/-- A7, A8: the flag wins in `VF`; `VF` is read before it is written. -/
theorem test_addReg_flag : after (exec (.addReg 15 1) (start [(15, 0x01), (1, 0x02)])) (fun t => t.reg 15 == 0) = true ∧
    after (exec (.addReg 0 15) (start [(0, 0x10), (15, 0xF0)])) (fun t => t.reg 0 == 0 && t.reg 15 == 1) = true := by decide

/-- A10. -/
theorem test_sub : after (exec (.sub 1 2) (start [(1, 0x10), (2, 0x20)])) (fun t => t.reg 1 == 0xF0 && t.reg 15 == 0) = true := by
  decide

/-- A11: equal operands do not borrow. -/
theorem test_sub_equal : after (exec (.sub 1 2) (start [(1, 0x33), (2, 0x33)])) (fun t => t.reg 1 == 0 && t.reg 15 == 1) = true := by
  decide

/-- A15. -/
theorem test_shr : after (exec (.shr 0 1) (start [(0, 0xAA), (1, 0x05)]))
    (fun t => t.reg 0 == 0x02 && t.reg 1 == 0x05 && t.reg 15 == 1) = true := by decide

/-- A21 (source example E3). -/
theorem test_subn : after (step (startAt (start [(1, 0xF0), (2, 0xFF)]) 0x200 0x8127))
    (fun t => t.reg 2 == 0x0F && t.reg 1 == 0xF0 && t.reg 15 == 1) = true := by decide

/-- A25: `x = F` is read as the subtrahend before it takes the flag. -/
theorem test_subn_vf : after (exec (.subn 15 1) (start [(15, 0x05), (1, 0x03)])) (fun t => t.reg 1 == 0xFE && t.reg 15 == 0) = true := by
  decide

/-- A27. -/
theorem test_shl : after (exec (.shl 0 1) (start [(0, 0xAA), (1, 0x81)]))
    (fun t => t.reg 0 == 0x02 && t.reg 1 == 0x81 && t.reg 15 == 1) = true := by decide

/-- D4: columns wrap. -/
theorem test_drw_wraps : after (exec (.drw 1 2 1) (startMem [(1, 0x3C)] 0x300 [0xFF]))
    (fun t => t.pixel 0 60 && t.pixel 0 63 && t.pixel 0 0 && t.pixel 0 3 && !t.pixel 0 4 && !t.pixel 0 59 && t.reg 15 == 0) = true := by
  decide

/-- D12: one collision anywhere sets the flag. -/
theorem test_drw_collision :
    after (exec (.drw 1 2 2) { startMem [] 0x300 [0xA0, 0x50] with fb := Screen.toggle Screen.blank 1 1 })
      (fun t => t.pixel 0 0 && t.pixel 0 2 && t.pixel 1 3 && !t.pixel 1 1 && t.reg 15 == 1) = true := by decide

/-- K17: the key index is the value mod 16. -/
theorem test_skp : after (exec (.skp 1) ((start [(1, 0x15)]).setKey 5 true)) (fun t => t.pc == 0x204) = true := by decide

/-- K18. -/
theorem test_sknp : after (exec (.sknp 1) ((start [(1, 0xFF)]).setKey 15 true)) (fun t => t.pc == 0x202) = true := by decide

/-- F1. -/
theorem test_ldVxDT : after (exec (.ldVxDT 1) { State.reset with dt := 0x2A }) (fun t => t.reg 1 == 0x2A && t.dt == 0x2A) = true := by
  decide

/-- F12. -/
theorem test_ldVxK : after (step (State.reset.withFetchWord 16 0xF10A))
    (fun t => t.waiting && t.waitReg == 1 && t.pc == 0x200 && t.status == .waitForKeyboard) = true := by decide

/-- F2. -/
theorem test_ldDTVx : after (exec (.ldDTVx 1) (start [(1, 0x3C)])) (fun t => t.dt == 0x3C && t.st == 0) = true := by decide

/-- F3. -/
theorem test_ldSTVx : after (exec (.ldSTVx 1) (start [(1, 0x05)])) (fun t => t.st == 0x05 && t.dt == 0 && t.soundOn) = true := by decide

/-- F5, F6. -/
theorem test_addI : after (exec (.addI 1) { start [(1, 0x01)] with i := 0xFFFF }) (fun t => t.i == 0) = true ∧
    after (exec (.addI 1) { start [(1, 0xFF)] with i := 0x0FFF }) (fun t => t.i == 0x10FE && t.reg 15 == 0) = true := by decide

/-- F8, F11, at the spec's default `FONT_BASE`. -/
theorem test_ldF : after (exec (.ldF 1) (start [(1, 0x0A)])) (fun t => t.i == 0x32) = true ∧
    after (exec (.ldF 1) (start [(1, 0xFF)])) (fun t => t.i == 0x4FB) = true := by decide

/-- F23. -/
theorem test_ldB : after (exec (.ldB 1) { start [(1, 0xFE)] with i := 0x300 })
    (fun t => t.readByte 0x300 == 2 && t.readByte 0x301 == 5 && t.readByte 0x302 == 4 && t.i == 0x300) = true := by decide

/-- F25: the store wraps and overwrites a font byte. -/
theorem test_ldB_wraps : after (exec (.ldB 1) { start [(1, 0xEA)] with i := 0x0FFE })
    (fun t => t.readByte 0xFFE == 2 && t.readByte 0xFFF == 3 && t.readByte 0x000 == 4 && t.readByte 0x001 == 0x90) = true := by decide

/-- F30. -/
theorem test_storeRegs : after (exec (.storeRegs 3) { start [(0, 0x10), (1, 0x11), (2, 0x12), (3, 0x13)] with i := 0x0FFE })
    (fun t => t.readByte 0xFFE == 0x10 && t.readByte 0xFFF == 0x11 && t.readByte 0 == 0x12 && t.readByte 1 == 0x13 &&
      t.readByte 2 == 0x90) = true := by decide

/-- F31. -/
theorem test_loadRegs : after (exec (.loadRegs 2) (startMem [(3, 0x77)] 0x400 [0xA0, 0xA1, 0xA2, 0xA3]))
    (fun t => t.reg 0 == 0xA0 && t.reg 1 == 0xA1 && t.reg 2 == 0xA2 && t.reg 3 == 0x77 && t.i == 0x400) = true := by decide

/-- F33: the program reads its own bytes, which shows the byte order. -/
theorem test_loadRegs_own_bytes : after (step ({ State.reset with i := 0x200 }.withFetchWord 16 0xF165))
    (fun t => t.reg 0 == 0xF1 && t.reg 1 == 0x65) = true := by decide

/-- Z7, Z8. -/
theorem test_unimplemented : after (step (State.reset.withFetchWord 16 0x0123))
    (fun t => t.pc == 0x202 && t.status == .notImplemented && t.faultMark) = true := by decide

/-- T1, T2: timers stop at 0. -/
theorem test_timerTick : after (step { State.reset with dt := 0xFF, st := 0, pending := [.timerTick] })
    (fun t => t.dt == 0xFE && t.st == 0 && t.pc == 0x200 && t.pending == []) = true := by decide

/-- F16. -/
theorem test_keyPress_resolves :
    after (step { State.reset with waiting := true, waitReg := 1, status := .waitForKeyboard, pending := [.keyPress 3] })
    (fun t => t.keyDown 3 && t.reg 1 == 3 && !t.waiting && t.pc == 0x202 && t.status == .waitForKeyboard) = true := by decide

/-- F15. -/
theorem test_keyRelease : after (step { (State.reset.setKey 7 true) with waiting := true, pending := [.keyRelease 7] })
    (fun t => !t.keyDown 7 && t.waiting && t.pc == 0x200) = true := by decide

/-- F14: a tick while waiting. -/
theorem test_tick_waiting : after (step { State.reset with waiting := true })
    (fun t => t.waiting && t.pc == 0x200 && t.status == .waitForKeyboard) = true := by decide

/-- R72: the bytes stand from 0x200 and `PC` does not move. -/
theorem test_loadProgram : after (step { State.reset with pc := 0x300, pending := [.loadProgram [0x12, 0x00]] })
    (fun t => t.readByte 0x200 == 0x12 && t.readByte 0x201 == 0 && t.pc == 0x300) = true := by decide

/-- R240: reset from a changed state. -/
theorem test_reset : after (step { start [(1, 5)] with pc := 0x300, waiting := true, pending := [.reset] })
    (fun t => t.reg 1 == 0 && t.pc == 0x200 && t.sp == 0xFF && !t.waiting) = true := by decide

/-- R44, R68: the font is in memory after reset. -/
theorem test_reset_font : State.reset.readByte 0 = 0xF0 ∧ State.reset.readByte 79 = 0x80 ∧ State.reset.readByte 80 = 0 ∧
    State.reset.readByte 0x200 = 0 := by decide

/-- R233: a jump to itself is an end, from any other jump it is not. -/
theorem test_programEnded : (State.reset.withFetchWord 16 0x1200).programEnded = true ∧
    (State.reset.withFetchWord 16 0x1202).programEnded = false := by decide

/-- Storing what an unlisted byte reads as leaves no entry. -/
theorem test_memory_canonical : ((State.reset.writeByte 0x300 5).writeByte 0x300 0).mem = [] ∧
    (State.reset.writeByte 0x000 0xF0).mem = [] := by decide

/-! ## Witnesses: the hypotheses of each statement are met together -/

theorem test_witness_CallPushesItsOwnAddress :
    (State.reset.sp.toNat + 1) % 256 ≤ 0x0F ∧ (({ State.reset with sp := 0x0E }).sp.toNat + 1) % 256 ≤ 0x0F := by decide

theorem test_witness_CallAtCapacityOverflows :
    0x0F < (({ State.reset with sp := 0x0F }).sp.toNat + 1) % 256 ∧ 0x0F < (({ State.reset with sp := 0xFE }).sp.toNat + 1) % 256 := by
  decide

theorem test_witness_ReturnPopsSlot :
    (15 : Fin 16).val = State.reset.sp.toNat % 16 ∧ (0 : Fin 16).val = ({ State.reset with sp := 0 }).sp.toNat % 16 := by decide

theorem test_witness_CallThenReturnResumes : (State.reset.sp.toNat + 1) % 256 ≤ 0x0F := by decide

theorem test_witness_SeventeenthCallOverflows : State.reset.sp = 0xFF ∧ (List.replicate 16 (0x200 : Addr)).length = 16 := by decide

theorem test_witness_SkipTestsNamedKey :
    (15 : Key).val = ((start [(1, 0xFF)]).reg 1).toNat % 16 ∧ (0 : Key).val = ((start [(1, 0x10)]).reg 1).toNat % 16 := by decide

theorem test_witness_LogicWritesNoFlag :
    (Instr.orReg 1 2 = .orReg 1 2 ∧ (0xFF : Byte) = (start [(1, 0xF0), (2, 0x0F)]).reg 1 ||| (start [(1, 0xF0), (2, 0x0F)]).reg 2) ∧
    (Instr.andReg 1 2 = .andReg 1 2 ∧ (0x00 : Byte) = (start [(1, 0xF0), (2, 0x0F)]).reg 1 &&& (start [(1, 0xF0), (2, 0x0F)]).reg 2) ∧
    (Instr.xorReg 1 2 = .xorReg 1 2 ∧ (0x00 : Byte) = (start [(1, 0xF0), (2, 0xF0)]).reg 1 ^^^ (start [(1, 0xF0), (2, 0xF0)]).reg 2) := by
  decide

/-- Both halves of the clauses on `x` (and `y`): a register that is the flag register and one that is not. -/
theorem test_witness_flag_writers : (0 : RegIdx) ≠ flagReg ∧ (14 : RegIdx) ≠ flagReg ∧ (15 : RegIdx) = flagReg := by decide

/-- A pixel the sprite covers and one it does not, the first lit and turned off, the other kept. -/
theorem test_witness_DrawTogglesSprite :
    (startMem [] 0x300 [0x80]).spriteLit 1 2 1 0 0 ∧ ¬ (startMem [] 0x300 [0x80]).spriteLit 1 2 1 0 1 ∧
    ({ startMem [] 0x300 [0x80] with fb := Screen.toggle Screen.blank 0 0 } : State).pixel 0 0 = true ∧
    after (exec (.drw 1 2 1) { startMem [] 0x300 [0x80] with fb := Screen.toggle Screen.blank 0 0 })
      (fun t => !t.pixel 0 0 && t.reg 15 == 1) = true := by
  refine ⟨?_, ?_, by decide, by decide⟩ <;> (rw [← rowsLit_iff_spriteLit]; decide)

/-- A draw with no collision: nothing is lit before it (the other clause on `VF`). -/
theorem test_witness_DrawTogglesSprite_no_collision (r : Fin 32) (c : Fin 64) : ¬ State.reset.pixel r c = true := by
  have h : State.reset.pixel r c = false := Screen.pixel_blank r c
  rw [h]; decide

theorem test_witness_DrawTwiceRestores : (1 : RegIdx) ≠ flagReg ∧ (14 : RegIdx) ≠ flagReg := by decide

theorem test_witness_DecimalDigitsStored : memIndex 0x2FF ≠ memIndex 0x300 ∧ memIndex 0x2FF ≠ memIndex (0x300 + 1) ∧
    memIndex 0x2FF ≠ memIndex (0x300 + 2) ∧ memIndex 0x303 ≠ memIndex 0x300 ∧ memIndex 0x303 ≠ memIndex (0x300 + 1) ∧
    memIndex 0x303 ≠ memIndex (0x300 + 2) := by decide

theorem test_witness_RegistersStored : (0 : RegIdx) ≤ 3 ∧ (3 : RegIdx) ≤ 3 ∧
    ∀ r : RegIdx, r ≤ 3 → memIndex 0x404 ≠ memIndex (0x400 + BitVec.ofNat 16 r.val) := by decide

theorem test_witness_RegistersLoaded : (0 : RegIdx) ≤ 2 ∧ (2 : RegIdx) ≤ 2 ∧ ¬ (3 : RegIdx) ≤ 2 := by decide

theorem test_witness_StoreThenLoadRestores : ∃ t, exec (.storeRegs 3) (start [(0, 1)]) = .next t ∧
    (t.setReg 0 9).mem = t.mem ∧ (t.setReg 0 9).cfg = t.cfg ∧ (t.setReg 0 9).i = t.i := ⟨_, rfl, rfl, rfl, rfl⟩

theorem test_witness_EncodeOfDecode : decode 0x8127 = .instr (.subn 1 2) := by decide

theorem test_witness_StepRunsDecodedInstruction :
    (State.reset.withFetchWord 16 0x6520).nextEvent = .tick ∧ (State.reset.withFetchWord 16 0x6520).waiting = false ∧
    decodeBytes ((State.reset.withFetchWord 16 0x6520).readByte 0x200) ((State.reset.withFetchWord 16 0x6520).readByte (0x200 + 1)) =
      .instr (.ldByte 5 0x20) ∧ (State.reset.withFetchWord 16 0x6520).pending = [] := by decide

theorem test_witness_UnimplementedWordIsPassed :
    (State.reset.nextEvent = .tick ∧ State.reset.pending = [] ∧ State.reset.waiting = false ∧
      State.reset.fetched = .unimplemented .family0) ∧
    ({ State.reset with pending := [.tick, .reset] }).nextEvent = .tick ∧
    ({ State.reset with pending := [.tick, .reset] }).fetched = .unimplemented .family0 := by decide

/-- An unimplemented word met by a scheduled tick: the schedule goes on after it. -/
theorem test_unimplemented_scheduled : after (step { State.reset with pending := [.tick, .timerTick] })
    (fun t => t.pc == 0x202 && t.status == .notImplemented && t.pending == [.timerTick]) = true := by decide

theorem test_witness_WaitingTickChangesNothing : ({ State.reset with waiting := true }).waiting = true := by decide

theorem test_witness_KeyPressResolvesWait :
    ({ State.reset with waiting := true }).waiting = true ∧ State.reset.waiting = false := by decide

theorem test_witness_LoadProgramCopiesBytes : (List.replicate 3584 (0 : Byte)).length ≤ 3584 ∧
    3584 < (List.replicate 3585 (0 : Byte)).length ∧ memIndex 0x1FF < 0x200 ∧ 0x200 + 2 ≤ memIndex 0x202 ∧ 0 < [(0 : Byte)].length := by
  rw [List.length_replicate, List.length_replicate]; decide

theorem test_witness_StoredBytesAreFetchedNext : ∃ t, (1 : RegIdx) ≤ 1 ∧ (0x202 : Word) = State.reset.pc + 2 ∧
    exec (.storeRegs 1) { State.reset with i := 0x202 } = .next t := ⟨_, by decide, by decide, rfl⟩

theorem test_witness_ResetClearsTheRest :
    memIndex 0x050 ≥ State.reset.cfg.fontBase.val + 80 ∧
    memIndex 0x1AF < (State.resetWith { defaultConfig with fontBase := 0x1B0 }).cfg.fontBase.val := by decide

theorem test_witness_MemoryStaysCanonical : MemoryCanonical State.reset ∧ ∃ t, step State.reset = .next t :=
  ⟨State.resetWith_mem_wf _, _, rfl⟩

theorem test_witness_StackPointerStaysInRange :
    StackInRange State.reset ∧ State.reset.underflowsNext = false ∧ (∃ t, step State.reset = .next t) ∧
    (State.reset.withFetchWord 16 0x00EE).underflowsNext = true := ⟨.inl rfl, by decide, ⟨_, rfl⟩, by decide⟩

theorem test_witness_ReportedStatusIsSound : WaitReported State.reset ∧
    WaitReported { State.reset with waiting := true, status := .waitForKeyboard } ∧ State.reset.status ≠ .error ∧
    ∃ t, step State.reset = .next t := ⟨fun h => absurd h (by decide), fun _ => rfl, by decide, _, rfl⟩

theorem test_witness_FaultMarkIsSticky : (∃ t, step State.reset = .next t ∧ State.reset.faultMark = false ∧
    State.reset.nextEvent = .tick ∧ t.status.isFault = true ∧ t.faultMark = true) ∧
    ∃ t, step { State.reset with faultMark := true } = .next t ∧ ({ State.reset with faultMark := true }).faultMark = true :=
  ⟨⟨_, rfl, by decide, by decide, by decide, by decide⟩, _, rfl, rfl⟩

theorem test_witness_EveryStepCompletes : ∀ bytes, State.reset.nextEvent = .loadProgram bytes → bytes.length ≤ 3584 :=
  fun _ h => by cases h

theorem test_witness_OnlyCallAndReturnTouchStack : ∃ t, step (State.reset.withFetchWord 16 0x2456) = .next t ∧
    ¬ SameStack (State.reset.withFetchWord 16 0x2456) t := ⟨_, rfl, fun h => absurd h.1 (by decide)⟩

theorem test_witness_OnlyClearAndDrawTouchScreen :
    ∃ t, step ({ State.reset with fb := Screen.toggle Screen.blank 0 0 }.withFetchWord 16 0x00E0) = .next t ∧
      t.pixel 0 0 ≠ ({ State.reset with fb := Screen.toggle Screen.blank 0 0 }.withFetchWord 16 0x00E0).pixel 0 0 :=
  ⟨_, rfl, by decide⟩

theorem test_witness_OnlyTimerEventsTouchTimers :
    (∃ t, step ((start [(1, 3)]).withFetchWord 16 0xF115) = .next t ∧ t.dt ≠ ((start [(1, 3)]).withFetchWord 16 0xF115).dt) ∧
    ∃ t, step ((start [(1, 3)]).withFetchWord 16 0xF118) = .next t ∧ t.st ≠ ((start [(1, 3)]).withFetchWord 16 0xF118).st :=
  ⟨⟨_, rfl, by decide⟩, _, rfl, by decide⟩

theorem test_witness_OnlyKeyEventsTouchLatchAndKeys :
    (∃ t, step (State.reset.withFetchWord 16 0xF10A) = .next t ∧ (State.reset.withFetchWord 16 0xF10A).waiting = false ∧ t.waiting = true) ∧
    ∃ t, step { State.reset with waiting := true, pending := [.keyPress 3] } = .next t ∧ t.waiting = false ∧ t.keys ≠ State.reset.keys :=
  ⟨⟨_, rfl, by decide, by decide⟩, _, rfl, by decide, by decide⟩

theorem test_witness_OnlyStoresTouchMemory : ∃ t, step ((start [(1, 5)]).withFetchWord 16 0xF155) = .next t ∧
    ¬ SameMemory ((start [(1, 5)]).withFetchWord 16 0xF155) t :=
  ⟨_, rfl, fun h => absurd (h 0x000) (by decide)⟩

end Sys2Proof.Tests
end

section
/-! PROOF. What one step can do, with the fetched word seen from the state before the step. -/

namespace Sys2Proof.Machine

/-! A key press touches the keys, and the latch, `PC` and one register when it resolves a wait (60_exceptions.md R216). -/

@[simp] theorem keyPress_sp (k : Key) (s : State) : (keyPress k s).sp = s.sp := by unfold keyPress; split <;> rfl
@[simp] theorem keyPress_stack (k : Key) (s : State) : (keyPress k s).stack = s.stack := by unfold keyPress; split <;> rfl
@[simp] theorem keyPress_dt (k : Key) (s : State) : (keyPress k s).dt = s.dt := by unfold keyPress; split <;> rfl
@[simp] theorem keyPress_st (k : Key) (s : State) : (keyPress k s).st = s.st := by unfold keyPress; split <;> rfl
@[simp] theorem keyPress_fb (k : Key) (s : State) : (keyPress k s).fb = s.fb := by unfold keyPress; split <;> rfl
@[simp] theorem keyPress_mem (k : Key) (s : State) : (keyPress k s).mem = s.mem := by unfold keyPress; split <;> rfl
@[simp] theorem keyPress_cfg (k : Key) (s : State) : (keyPress k s).cfg = s.cfg := by unfold keyPress; split <;> rfl
@[simp] theorem keyPress_faultMark (k : Key) (s : State) : (keyPress k s).faultMark = s.faultMark := by
  unfold keyPress; split <;> rfl
@[simp] theorem keyPress_waiting (k : Key) (s : State) : (keyPress k s).waiting = false := by
  unfold keyPress
  split
  · rfl
  · rename_i h; exact Bool.eq_false_iff.mpr h

theorem State.fetchesNext_iff (s : State) : s.fetchesNext = true ↔ s.nextEvent = .tick ∧ s.waiting = false := by
  simp [State.fetchesNext]

theorem State.underflowsNext_iff (s : State) :
    s.underflowsNext = true ↔ s.fetchesNext = true ∧ s.fetched = .instr .ret ∧ s.sp = 0xFF := by
  simp [State.underflowsNext, and_assoc]

/-- Everything one step can do, a tick taken apart by what it meets: the cases of `step_cases` and `tick_cases` in one. -/
inductive StepCase (s : State) : State → Prop
  | reset (he : s.nextEvent = .reset) : StepCase s (resetEvent s.takeEvent)
  | loadProgram (bytes : List Byte) (he : s.nextEvent = .loadProgram bytes) (hfit : programFits bytes = true) :
      StepCase s (s.takeEvent.storeBytes 0x200 bytes)
  | timerTick (he : s.nextEvent = .timerTick) : StepCase s (timerTick s.takeEvent)
  | keyPress (k : Key) (he : s.nextEvent = .keyPress k) : StepCase s (keyPress k s.takeEvent)
  | keyRelease (k : Key) (he : s.nextEvent = .keyRelease k) : StepCase s (keyRelease k s.takeEvent)
  | waitingTick (he : s.nextEvent = .tick) (hw : s.waiting = true) : StepCase s (s.takeEvent.endTick .waitForKeyboard)
  | unimplementedTick (u : Unimplemented) (hn : s.fetchesNext = true) (hf : s.fetched = .unimplemented u) :
      StepCase s (s.takeEvent.endTick .notImplemented)
  | instrTick (i : Instr) (t : State) (hn : s.fetchesNext = true) (hf : s.fetched = .instr i)
      (hx : exec i s.takeEvent = .next t) : StepCase s t

theorem stepCase_of_step {s t : State} (h : step s = .next t) : StepCase s t := by
  rcases step_cases h with ⟨he, rfl⟩ | ⟨bytes, he, hfit, rfl⟩ | ⟨he, ht⟩ | ⟨he, rfl⟩ | ⟨k, he, rfl⟩ | ⟨k, he, rfl⟩
  · exact .reset he
  · exact .loadProgram bytes he hfit
  · rcases tick_cases s.takeEvent with ⟨hw, hx⟩ | ⟨i, hw, hf, hx⟩ | ⟨u, hw, hf, hx⟩ <;> rw [hx] at ht
    · cases ht; exact .waitingTick he hw
    · exact .instrTick i t (s.fetchesNext_iff.mpr ⟨he, hw⟩) hf ht
    · cases ht; exact .unimplementedTick u (s.fetchesNext_iff.mpr ⟨he, hw⟩) hf
  · exact .timerTick he
  · exact .keyPress k he
  · exact .keyRelease k he

end Sys2Proof.Machine
end

section
/-! PROOF. Memory: the canonical form is kept by every step, and only stores, loads of a program and `Reset` change a byte
(20_memory.md, 10_state.md R38). -/

namespace Sys2Proof.Machine

/-- The canonical form depends on the configuration and the memory alone. -/
theorem MemoryCanonical.congr {s t : State} (hc : t.cfg = s.cfg) (hm : t.mem = s.mem) (h : MemoryCanonical s) :
    MemoryCanonical t := by
  unfold MemoryCanonical
  rwa [hc, hm]

theorem MemoryCanonical.storeBytes {s : State} (h : MemoryCanonical s) (a : Word) (bs : List Byte) :
    MemoryCanonical (s.storeBytes a bs) := by
  unfold MemoryCanonical
  rw [State.storeBytes_cfg]
  exact s.storeBytes_wf a bs h

/-- Every instruction keeps the canonical form: the two that store do so byte by byte. -/
theorem exec_memoryCanonical {i : Instr} {s t : State} (hc : MemoryCanonical s) (hx : exec i s = .next t) :
    MemoryCanonical t := by
  have frame := exec_frame i s t hx
  by_cases hm : t.mem = s.mem
  · exact hc.congr frame.config hm
  · obtain ⟨x, rfl | rfl⟩ := frame.memory hm
    · cases hx; exact (hc.storeBytes s.i (bcdDigits (s.reg x))).congr rfl rfl
    · cases hx; exact (hc.storeBytes s.i (s.regsUpTo x)).congr rfl rfl

/-- Settles O50: the canonical form is kept event by event; a tick keeps it by `exec_memoryCanonical`. -/
theorem memoryStaysCanonical : Obligations.MemoryStaysCanonical := by
  intro s t hc h
  have hc' : MemoryCanonical s.takeEvent := hc
  cases stepCase_of_step h with
  | reset => exact State.resetWith_mem_wf s.cfg
  | loadProgram bytes => exact hc'.storeBytes 0x200 bytes
  | timerTick | keyPress | keyRelease | waitingTick | unimplementedTick => exact hc'.congr (by simp) (by simp)
  | instrTick i t hn hf hx => exact exec_memoryCanonical hc' hx

theorem sameMemory_of_mem_eq {s t : State} (hc : t.cfg = s.cfg) (hm : t.mem = s.mem) : SameMemory s t :=
  State.readByte_congr hc hm

/-- No step changes the configuration (00_scope.md R15). -/
theorem step_cfg {s t : State} (h : step s = .next t) : t.cfg = s.cfg := by
  cases stepCase_of_step h with
  | reset | loadProgram | timerTick | keyPress | keyRelease | waitingTick | unimplementedTick => simp
  | instrTick i t hn hf hx => exact (exec_frame i s.takeEvent t hx).config

/-- Settles O59: an event that lists the same cells under the same configuration changes no byte. -/
theorem onlyStoresTouchMemory : Obligations.OnlyStoresTouchMemory := by
  intro s t h
  refine ⟨step_cfg h, fun hne => ?_⟩
  have hmem : t.mem ≠ s.mem := fun hm => hne (sameMemory_of_mem_eq (step_cfg h) hm)
  cases stepCase_of_step h with
  | reset he => exact .inl he
  | loadProgram bytes he => exact .inr (.inl ⟨bytes, he⟩)
  | timerTick | keyPress | keyRelease | waitingTick | unimplementedTick => simp at hmem
  | instrTick i t hn hf hx =>
    obtain ⟨x, rfl | rfl⟩ := (exec_frame i s.takeEvent t hx).memory hmem
    · exact .inr (.inr ⟨hn, x, .inl hf⟩)
    · exact .inr (.inr ⟨hn, x, .inr hf⟩)

end Sys2Proof.Machine
end

section
/-! PROOF. The call stack (10_state.md R28 to R30). -/

namespace Sys2Proof.Machine

theorem exec_call_of_stackFull {s : State} (addr : Addr) (h : s.stackFull = true) :
    exec (.call addr) s = .next (s.endTick .stackOverflow) := by
  simp [exec, execCall, h]

/-- What a call that fits leaves: its own address pushed, `PC` at the target, `NotIncrementPC` reported (R111). -/
def State.enter (s : State) (addr : Addr) : State :=
  ((s.push s.pc).setPc (wordOfAddr addr)).endTick .notIncrementPC

theorem exec_call_of_not_stackFull {s : State} (addr : Addr) (h : s.stackFull = false) :
    exec (.call addr) s = .next (s.enter addr) := by
  simp [exec, execCall, State.enter, h]

theorem execAll_call_cons {s : State} (addr : Addr) (is : List Instr) (h : s.stackFull = false) :
    execAll (.call addr :: is) s = execAll is (s.enter addr) := by
  simp [execAll, exec_call_of_not_stackFull addr h]

@[simp] theorem State.enter_sp (s : State) (addr : Addr) : (s.enter addr).sp = s.sp + 1 := rfl

@[simp] theorem State.enter_status (s : State) (addr : Addr) : (s.enter addr).status = .notIncrementPC := rfl

@[simp] theorem State.enter_faultMark (s : State) (addr : Addr) : (s.enter addr).faultMark = s.faultMark := by
  simp [State.enter, Signal.isFault]

theorem State.slot_enter (s : State) (addr : Addr) (j : Fin 16) :
    (s.enter addr).slot j = if j = slotOf (s.sp + 1) then s.pc else s.slot j :=
  s.slot_push s.pc j

theorem slotOf_val {sp : Byte} (h : sp.toNat ≤ 0x0F) : (slotOf sp).val = sp.toNat :=
  Nat.mod_eq_of_lt (by omega)

theorem State.stackFull_eq_false_iff (s : State) : s.stackFull = false ↔ (s.sp + 1).toNat ≤ 0x0F := by
  simp [State.stackFull]

/-- `StackInRange` depends on `SP` alone. -/
theorem StackInRange.congr {s t : State} (hsp : t.sp = s.sp) (h : StackInRange s) : StackInRange t := by
  unfold StackInRange
  rwa [hsp]

theorem stackInRange_push {s : State} (w : Word) (h : s.stackFull = false) : StackInRange (s.push w) :=
  .inr (s.stackFull_eq_false_iff.mp h)

/-- A return leaves the range only from the empty stack: from slot 0 it empties the stack, else it goes one slot down. -/
theorem StackInRange.drop {s : State} (h : StackInRange s) (hne : s.sp ≠ 0xFF) : StackInRange s.drop := by
  have hle : s.sp.toNat ≤ 0x0F := h.resolve_left hne
  unfold StackInRange
  rw [State.drop_sp]
  by_cases h0 : s.sp = 0
  · exact .inl (by rw [h0]; decide)
  · exact .inr (by bv_omega)

/-- Every instruction but a return on an empty stack keeps `SP` in range (R29, R101, R111). -/
theorem exec_stackInRange {i : Instr} {s t : State} (hr : StackInRange s) (hu : i = .ret → s.sp ≠ 0xFF)
    (hx : exec i s = .next t) : StackInRange t := by
  by_cases hs : SameStack s t
  · exact hr.congr hs.1
  · rcases (exec_frame i s t hx).stack hs with rfl | ⟨addr, rfl⟩
    · cases hx; exact (hr.drop (hu rfl)).congr rfl
    · cases hfull : s.stackFull with
      | true => rw [exec_call_of_stackFull addr hfull] at hx; cases hx; exact hr.congr rfl
      | false =>
        rw [exec_call_of_not_stackFull addr hfull] at hx
        cases hx
        exact (stackInRange_push s.pc hfull).congr rfl

/-- Settles O51: only an instruction can move `SP` between slots, and `exec_stackInRange` holds of each. -/
theorem stackPointerStaysInRange : Obligations.StackPointerStaysInRange := by
  intro s t hr hu h
  cases stepCase_of_step h with
  | reset => exact .inl rfl
  | loadProgram | timerTick | keyPress | keyRelease | waitingTick | unimplementedTick => exact hr.congr (by simp)
  | instrTick i t hn hf hx =>
    refine exec_stackInRange (s := s.takeEvent) hr (fun hi hsp => ?_) hx
    exact Bool.eq_false_iff.mp hu (s.underflowsNext_iff.mpr ⟨hn, hi ▸ hf, hsp⟩)

/-- Calls that fit on the stack all succeed: each moves `SP` one up and writes the slot it then names, so no slot below the
first one written changes. -/
theorem execAll_calls (addrs : List Addr) (s : State) (hfit : (s.sp + 1).toNat + addrs.length ≤ 16) :
    ∃ t, execAll (addrs.map .call) s = .next t ∧ t.sp = s.sp + BitVec.ofNat 8 addrs.length ∧
      (s.status = .notIncrementPC → t.status = .notIncrementPC) ∧ t.faultMark = s.faultMark ∧
      ∀ j : Fin 16, j.val < (s.sp + 1).toNat → t.slot j = s.slot j := by
  induction addrs generalizing s with
  | nil => exact ⟨s, rfl, by simp, id, rfl, fun _ _ => rfl⟩
  | cons addr addrs ih =>
    rw [List.length_cons] at hfit
    have hroom : (s.sp + 1).toNat ≤ 0x0F := by omega
    have hsucc : (s.sp + 1 + 1).toNat = (s.sp + 1).toNat + 1 := by bv_omega
    obtain ⟨t, hrun, hsp, hstatus, hmark, hslots⟩ := ih (s.enter addr) (by rw [State.enter_sp, hsucc]; omega)
    refine ⟨t, (execAll_call_cons addr _ (s.stackFull_eq_false_iff.mpr hroom)).trans hrun, ?_, fun _ => hstatus rfl,
      hmark.trans (s.enter_faultMark addr), fun j hj => ?_⟩
    · rw [hsp, State.enter_sp, List.length_cons, Nat.add_comm, BitVec.ofNat_add, BitVec.add_assoc]; rfl
    · have hne : j ≠ slotOf (s.sp + 1) := fun e => by rw [e, slotOf_val hroom] at hj; omega
      rw [hslots j (by rw [State.enter_sp, hsucc]; omega), State.slot_enter, if_neg hne]

/-- Settles O11: the first call writes slot 0, the other fifteen leave it alone (`execAll_calls`), and the stack is then
full. -/
theorem seventeenthCallOverflows : Obligations.SeventeenthCallOverflows := by
  intro addrs s hempty hlen
  cases addrs with
  | nil => cases hlen
  | cons addr addrs =>
    have hlen' : addrs.length = 15 := by simpa using hlen
    have hroom : (s.sp + 1).toNat = 0 := by rw [hempty]; decide
    have hone : ((s.enter addr).sp + 1).toNat = 1 := by rw [State.enter_sp, hempty]; decide
    obtain ⟨t, hrun, hsp, hstatus, hmark, hslots⟩ := execAll_calls addrs (s.enter addr) (by omega)
    have hsp15 : t.sp = 0x0F := by rw [hsp, State.enter_sp, hempty, hlen']; decide
    have hfull : t.stackFull = true := t.stackFull_iff.mpr (by rw [hsp15]; decide)
    refine ⟨t, (execAll_call_cons addr _ (s.stackFull_eq_false_iff.mpr (by omega))).trans hrun, hsp15, hstatus rfl,
      hmark.trans (s.enter_faultMark addr), ?_, fun a => ?_⟩
    · rw [hslots 0 (by rw [hone]; decide), State.slot_enter, if_pos (by rw [hempty]; decide)]
    · exact ⟨_, exec_call_of_stackFull a hfull, rfl, BitVec.add_zero _, rfl, rfl⟩

/-- Settles O55: no event but `Reset` touches the stack, and of the instructions only 00EE and 2nnn do. -/
theorem onlyCallAndReturnTouchStack : Obligations.OnlyCallAndReturnTouchStack := by
  intro s t h hne
  cases stepCase_of_step h with
  | reset he => exact .inl he
  | loadProgram | timerTick | keyPress | keyRelease | waitingTick | unimplementedTick => simp [SameStack] at hne
  | instrTick i t hn hf hx =>
    rcases (exec_frame i s.takeEvent t hx).stack hne with rfl | ⟨addr, rfl⟩
    · exact .inr ⟨hn, .inl hf⟩
    · exact .inr ⟨hn, .inr ⟨addr, hf⟩⟩

end Sys2Proof.Machine
end

section
/-! PROOF. The framebuffer, the timers, the latch, the keys and the model's mark: which events change them
(10_state.md R31 to R39). -/

namespace Sys2Proof.Machine

/-- Settles O56: no event but `Reset` touches the framebuffer, and of the instructions only 00E0 and Dxyn do. -/
theorem onlyClearAndDrawTouchScreen : Obligations.OnlyClearAndDrawTouchScreen := by
  intro s t h hne
  cases stepCase_of_step h with
  | reset he => exact .inl he
  | loadProgram | timerTick | keyPress | keyRelease | waitingTick | unimplementedTick => simp at hne
  | instrTick i t hn hf hx =>
    rcases (exec_frame i s.takeEvent t hx).screen hne with rfl | ⟨x, y, n, rfl⟩
    · exact .inr ⟨hn, .inl hf⟩
    · exact .inr ⟨hn, .inr ⟨x, y, n, hf⟩⟩

/-- Settles O57: outside `Reset` and `TimerTick` a timer changes only in the instruction that writes it. -/
theorem onlyTimerEventsTouchTimers : Obligations.OnlyTimerEventsTouchTimers := by
  intro s t h
  cases stepCase_of_step h with
  | reset he => exact ⟨fun _ => .inl he, fun _ => .inl he⟩
  | timerTick he => exact ⟨fun _ => .inr (.inl he), fun _ => .inr (.inl he)⟩
  | loadProgram | keyPress | keyRelease | waitingTick | unimplementedTick => simp
  | instrTick i t hn hf hx =>
    have frame := exec_frame i s.takeEvent t hx
    refine ⟨fun hne => .inr (.inr ⟨hn, ?_⟩), fun hne => .inr (.inr ⟨hn, ?_⟩)⟩
    · obtain ⟨x, rfl⟩ := frame.delay hne; exact ⟨x, hf⟩
    · obtain ⟨x, rfl⟩ := frame.sound hne; exact ⟨x, hf⟩

/-- Settles O58: an instruction runs with the latch clear and keeps the keys, so it can only set the latch. -/
theorem onlyKeyEventsTouchLatchAndKeys : Obligations.OnlyKeyEventsTouchLatchAndKeys := by
  intro s t h
  cases stepCase_of_step h with
  | reset he => exact ⟨fun _ hw => Bool.noConfusion hw, fun _ _ => .inl he, fun _ => .inl he⟩
  | keyPress k he => exact ⟨by simp, fun _ _ => .inr ⟨k, he⟩, fun _ => .inr ⟨k, .inl he⟩⟩
  | keyRelease k he => exact ⟨by simp +contextual, by simp +contextual, fun _ => .inr ⟨k, .inr he⟩⟩
  | loadProgram | timerTick | waitingTick | unimplementedTick => simp +contextual
  | instrTick i t hn hf hx =>
    have frame := exec_frame i s.takeEvent t hx
    have hclear : s.waiting = false := (s.fetchesNext_iff.mp hn).2
    refine ⟨fun _ hset => ⟨hn, ?_⟩, fun hw => absurd hw (by simp [hclear]), fun hne => absurd frame.keys hne⟩
    obtain ⟨x, rfl⟩ := frame.latch (by simp [hset, hclear])
    exact ⟨x, hf⟩

/-- A tick sets the model's mark exactly when it reports a fault signal; no other event touches it. -/
theorem step_faultMark {s t : State} (h : step s = .next t) :
    s.nextEvent = .tick ∧ t.faultMark = (s.faultMark || t.status.isFault) ∨
    s.nextEvent ≠ .tick ∧ t.faultMark = s.faultMark := by
  cases stepCase_of_step h with
  | reset he | loadProgram _ he | timerTick he | keyPress _ he | keyRelease _ he => exact .inr (by simp [he])
  | waitingTick he => exact .inl ⟨he, rfl⟩
  | unimplementedTick u hn => exact .inl ⟨(s.fetchesNext_iff.mp hn).1, rfl⟩
  | instrTick i t hn hf hx => exact .inl ⟨(s.fetchesNext_iff.mp hn).1, (exec_frame i s.takeEvent t hx).mark⟩

/-- Settles O53 from `step_faultMark`. -/
theorem faultMarkIsSticky : Obligations.FaultMarkIsSticky := by
  intro s t h
  rcases step_faultMark h with ⟨he, hmark⟩ | ⟨he, hmark⟩
  · rw [hmark]
    exact ⟨fun hset => by simp [hset], fun _ hfault => by simp [hfault],
      fun hclear hset => ⟨he, by simpa [hclear] using hset⟩⟩
  · rw [hmark]
    exact ⟨id, fun htick => absurd htick he, fun hclear hset => by simp [hclear] at hset⟩

end Sys2Proof.Machine
end

section
/-! PROOF. The reset values (10_state.md R44, 20_memory.md R68, 70_reset_and_hazards.md R240). -/

namespace Sys2Proof.Machine

/-- Byte `k` of digit `d` stands `5 * d + k` above `FONT_BASE` (R68). -/
theorem unlisted_font (c : Config) (d : Fin 16) (k : Fin 5) :
    unlisted c (c.fontBase.val + 5 * d.val + k.val) = (c.font[d.val])[k.val] := by
  have hin : c.fontBase.val ≤ c.fontBase.val + 5 * d.val + k.val ∧
      c.fontBase.val + 5 * d.val + k.val < c.fontBase.val + 80 := by omega
  have hdigit : (c.fontBase.val + 5 * d.val + k.val - c.fontBase.val) / 5 = d.val := by omega
  have hrow : (c.fontBase.val + 5 * d.val + k.val - c.fontBase.val) % 5 = k.val := by omega
  simp only [unlisted, dif_pos hin, hdigit, hrow]

theorem unlisted_outside_font (c : Config) {a : Nat} (h : a < c.fontBase.val ∨ c.fontBase.val + 80 ≤ a) :
    unlisted c a = 0 :=
  dif_neg (by omega)

/-- The font ends below 0x200, so no address of it wraps. -/
theorem memIndex_font (c : Config) (d : Fin 16) (k : Fin 5) :
    memIndex (BitVec.ofNat 16 (c.fontBase.val + 5 * d.val + k.val)) = c.fontBase.val + 5 * d.val + k.val := by
  simp only [memIndex, BitVec.toNat_ofNat]
  omega

theorem resetWith_holdsResetValues (c : Config) : HoldsResetValues c (State.resetWith c) := by
  refine ⟨rfl, rfl, fun r => ?_, rfl, fun j => ?_, rfl, rfl, fun r p => Screen.pixel_blank r p, rfl, rfl, fun k => ?_, rfl,
    fun d k => ?_, fun a ha => ?_⟩
  · simp [State.reg, State.resetWith]
  · simp [State.slot, State.resetWith]
  · simp [State.keyDown, State.resetWith]
  · rw [State.resetWith_readByte, memIndex_font, unlisted_font]
  · rw [State.resetWith_readByte, unlisted_outside_font c ha]

/-- The `Reset` event differs from the reset state only in what is the model's own (notes/assumptions/23.md). -/
theorem resetEvent_holdsResetValues (s : State) : HoldsResetValues s.cfg (resetEvent s) :=
  resetWith_holdsResetValues s.cfg

/-- Settles O48: the event and the state after reset hold the same values. -/
theorem resetClearsTheRest : Obligations.ResetClearsTheRest :=
  ⟨fun s => ⟨resetEvent s, rfl, resetEvent_holdsResetValues s⟩, resetWith_holdsResetValues⟩

/-- Settles O49: no cell is listed, the stack is empty and the latch is clear. -/
theorem resetMeetsInvariants : Obligations.ResetMeetsInvariants :=
  fun c => ⟨State.resetWith_mem_wf c, .inl rfl, fun hw => Bool.noConfusion hw⟩

end Sys2Proof.Machine
end

section
/-! PROOF. Stores and fetches: the program load, the byte order of an instruction word and stores over the next instruction
(20_memory.md R61, R62, R71, R72); every step but the refused load answers a next state (60_exceptions.md R233). -/

namespace Sys2Proof.Machine

/-- A run of stores changes memory and nothing else. -/
theorem State.storeBytes_with_mem (s : State) (a : Word) (bs : List Byte) (m : Memory) :
    { s.storeBytes a bs with mem := m } = { s with mem := m } := by
  induction bs generalizing s a with
  | nil => rfl
  | cons b bs ih => exact ih (s.writeByte a b) (a + 1)

/-! The program load (R72). -/

theorem loadProgram_of_length_le {bytes : List Byte} (h : bytes.length ≤ 3584) (s : State) :
    loadProgram bytes s = .next (s.storeBytes 0x200 bytes) :=
  if_pos (decide_eq_true h)

theorem loadProgram_of_length_gt {bytes : List Byte} (h : 3584 < bytes.length) (s : State) :
    loadProgram bytes s = .refused .programTooLong :=
  if_neg (by simp [programFits, h])

/-- The cells of a program that fits are the addresses 0x200 to 0xFFF: none wraps (R66). -/
theorem memIndex_program {k : Nat} (h : k < 3584) : memIndex (0x200 + BitVec.ofNat 16 k) = 0x200 + k := by
  have hbase : (0x200 : Word).toNat = 0x200 := rfl
  simp only [memIndex, BitVec.toNat_add, BitVec.toNat_ofNat, hbase]
  omega

/-- Settles O44: the load is a run of stores from 0x200, and the cells stored to are 0x200 to 0x1FF + `bytes.length`. -/
theorem loadProgramCopiesBytes : Obligations.LoadProgramCopiesBytes := by
  refine fun bytes s => ⟨fun hfit => ⟨_, loadProgram_of_length_le hfit s, fun k hk => ?_, fun a ha => ?_, ?_⟩,
    fun hlong => loadProgram_of_length_gt hlong s⟩
  · rw [BitVec.ofNat_add]
    exact s.readByte_storeBytes_at 0x200 bytes (by omega) k hk
  · refine s.readByte_storeBytes_other 0x200 bytes (by omega) a fun k hk => ?_
    rw [memIndex_program (by omega)]
    omega
  · exact s.storeBytes_with_mem 0x200 bytes s.mem

/-! Fetching what was stored (R61, R62, R71). -/

theorem State.fetched_eq_decode_fetchWord (s : State) : s.fetched = decode s.fetchWord := rfl

@[simp] theorem State.placeWord_pc (s : State) (w : Word) : (s.placeWord w).pc = s.pc :=
  s.storeBytes_pc s.pc [firstByte w, secondByte w]

theorem State.placeWord_readByte (s : State) (w : Word) (a : Word) :
    (s.placeWord w).readByte a = (s.storeBytes s.pc [firstByte w, secondByte w]).readByte a := rfl

/-- The word placed at `PC` is the word fetched: its two bytes are read back in the order they were stored. -/
theorem State.placeWord_fetchWord (s : State) (w : Word) : (s.placeWord w).fetchWord = w := by
  have hbytes := s.readByte_storeBytes_at s.pc [firstByte w, secondByte w] (by simp)
  have hfirst : (s.placeWord w).readByte s.pc = firstByte w := by
    simpa [State.placeWord_readByte] using hbytes 0 (by simp)
  have hsecond : (s.placeWord w).readByte (s.pc + 1) = secondByte w := hbytes 1 (by simp)
  rw [State.fetchWord, State.placeWord_pc, hfirst, hsecond, wordOfBytes_bytes]

/-- Settles O45: the decoding is that of the fetched word. -/
theorem placedWordIsFetched : Obligations.PlacedWordIsFetched := fun w s =>
  ⟨s.placeWord_fetchWord w,
    (s.placeWord w).fetched_eq_decode_fetchWord.trans (congrArg decode (s.placeWord_fetchWord w)), s.placeWord_pc w⟩

@[simp] theorem State.endTick_readByte (s : State) (sig : Signal) (a : Word) :
    (s.endTick sig).readByte a = s.readByte a := rfl

/-- What Fx55 stores: register `r` up to `x` stands at `I + r`. -/
theorem State.readByte_storeRegs (s : State) {x r : RegIdx} (h : r ≤ x) :
    (s.storeBytes s.i (s.regsUpTo x)).readByte (s.i + BitVec.ofNat 16 r.val) = s.reg r := by
  rw [State.readByte_storeBytes _ _ _ (by rw [State.regsUpTo_length]; omega), offsetFrom_add (by omega),
    State.regsUpTo_getElem?, if_pos h, Option.getD_some]

/-- Settles O46: Fx55 leaves `PC` at its own `I`, where it stored `V[0]` and then `V[1]`. -/
theorem storedBytesAreFetchedNext : Obligations.StoredBytesAreFetchedNext := by
  intro x s t hx hi hexec
  cases hexec
  have hpc : ((s.storeBytes s.i (s.regsUpTo x)).endTick .incrementPC).pc = s.i := by simp [hi]
  have hfirst : (s.storeBytes s.i (s.regsUpTo x)).readByte s.i = s.reg 0 := by
    simpa using s.readByte_storeRegs (Fin.zero_le x)
  have hsecond : (s.storeBytes s.i (s.regsUpTo x)).readByte (s.i + 1) = s.reg 1 := s.readByte_storeRegs hx
  rw [State.fetched, hpc, State.endTick_readByte, State.endTick_readByte, hfirst, hsecond]

/-- Every event but the load of a program that does not fit answers a next state. -/
theorem applyEvent_next (e : HostEvent) (s : State) (hfit : ∀ bytes, e = .loadProgram bytes → bytes.length ≤ 3584) :
    ∃ t, applyEvent e s = .next t := by
  cases e with
  | loadProgram bytes => exact ⟨_, loadProgram_of_length_le (hfit bytes rfl) s⟩
  | tick => exact tick_next s
  | reset | timerTick | keyPress | keyRelease => exact ⟨_, rfl⟩

/-- Settles O54: a step is the next event applied. -/
theorem everyStepCompletes : Obligations.EveryStepCompletes :=
  fun s hfit => applyEvent_next s.nextEvent s.takeEvent hfit

end Sys2Proof.Machine
end

section
/-! PROOF. The decoder and the encoder: each undoes the other, the rows of the opcode map and the unimplemented words
(30_encoding.md R81 to R91). -/

namespace Sys2Proof

/-! The families that have a decoder of their own (R83, R84). -/

theorem decode_of_opField_8 {w : Word} (hop : opField w = 0x8) : decode w = decodeFamily8 w := by
  rw [decode, hop]; rfl

theorem decode_of_opField_E {w : Word} (hop : opField w = 0xE) : decode w = decodeFamilyE w := by
  rw [decode, hop]; rfl

theorem decode_of_opField_F {w : Word} (hop : opField w = 0xF) : decode w = decodeFamilyF w := by
  rw [decode, hop]; rfl

/-! The encoder, then the decoder: each layout of R82 gives back the fields it was built from. -/

theorem decode_encode (i : Instr) : decode (encode i) = .instr i := by
  cases i with
  | cls | ret => rfl
  | jp | call | ldI | jpV0 =>
    simp [encode, decode, opField_encAddr, addrField_encAddr]
  | seByte | sneByte | ldByte | addByte | rnd =>
    simp [encode, decode, opField_encXKK, xField_encXKK, kkField_encXKK]
  | skp | sknp =>
    simp [encode, decode, decodeFamilyE, opField_encXKK, xField_encXKK, kkField_encXKK]
  | ldVxDT | ldVxK | ldDTVx | ldSTVx | addI | ldF | ldB | storeRegs | loadRegs =>
    simp [encode, decode, decodeFamilyF, opField_encXKK, xField_encXKK, kkField_encXKK]
  | seReg | sneReg | drw =>
    simp [encode, decode, opField_encXYN, xField_encXYN, yField_encXYN, nField_encXYN]
  | ldReg | orReg | andReg | xorReg | addReg | sub | shr | subn | shl =>
    simp [encode, decode, decodeFamily8, opField_encXYN, xField_encXYN, yField_encXYN, nField_encXYN]

/-- Settles O33: the decoder reads back the fields the layout of each row was built from. -/
theorem decodeOfEncode : Obligations.DecodeOfEncode := decode_encode

/-- Settles O37: seven of the words are the encodings of their instructions, so `decode_encode` decodes them. -/
theorem decodesWrittenOutWords : Obligations.DecodesWrittenOutWords :=
  ⟨decode_encode (.ldByte 5 0x20), decode_encode (.addByte 0 0x05), decode_encode (.subn 1 2), decode_encode .ret,
    decode_encode (.drw 5 10 7), decode_encode (.skp 5), decode_encode (.loadRegs 15), rfl⟩

/-! The decoder, then the encoder: a word is the encoding of the fields the decoder compared and those it kept. -/

theorem encAddr_eq_of_fields {w : Word} {op : BitVec 4} {a : Addr} (hop : opField w = op) (ha : addrField w = a) :
    encAddr op a = w := by
  rw [← hop, ← ha, encAddr_fields]

theorem encXKK_eq_of_fields {w : Word} {op : BitVec 4} {kk : Byte} (hop : opField w = op) (hkk : kkField w = kk) :
    encXKK op (xField w) kk = w := by
  rw [← hop, ← hkk, encXKK_fields]

theorem encXYN_eq_of_fields {w : Word} {op n : BitVec 4} (hop : opField w = op) (hn : nField w = n) :
    encXYN op (xField w) (yField w) n = w := by
  rw [← hop, ← hn, encXYN_fields]

theorem encode_of_decodeFamily0 {w : Word} {i : Instr} (hop : opField w = 0x0) (h : decodeFamily0 w = .instr i) :
    encode i = w := by
  unfold decodeFamily0 at h
  split_ifs at h with hcls hret
  · cases h; exact encAddr_eq_of_fields hop hcls
  · cases h; exact encAddr_eq_of_fields hop hret

theorem encode_of_decodeFamily8 {w : Word} {i : Instr} (hop : opField w = 0x8) (h : decodeFamily8 w = .instr i) :
    encode i = w := by
  unfold decodeFamily8 at h
  split at h <;> cases h <;> exact encXYN_eq_of_fields hop (by assumption)

theorem encode_of_decodeFamilyE {w : Word} {i : Instr} (hop : opField w = 0xE) (h : decodeFamilyE w = .instr i) :
    encode i = w := by
  unfold decodeFamilyE at h
  split at h <;> cases h <;> exact encXKK_eq_of_fields hop (by assumption)

theorem encode_of_decodeFamilyF {w : Word} {i : Instr} (hop : opField w = 0xF) (h : decodeFamilyF w = .instr i) :
    encode i = w := by
  unfold decodeFamilyF at h
  split at h <;> cases h <;> exact encXKK_eq_of_fields hop (by assumption)

/-- Everything the decoder can do with a word: four families compare a sub-opcode; each word of the other twelve is the
encoding of what it decodes to. -/
inductive DecodeCase (w : Word) : Decoded → Prop
  | family0 (hop : opField w = 0x0) : DecodeCase w (decodeFamily0 w)
  | family8 (hop : opField w = 0x8) : DecodeCase w (decodeFamily8 w)
  | familyE (hop : opField w = 0xE) : DecodeCase w (decodeFamilyE w)
  | familyF (hop : opField w = 0xF) : DecodeCase w (decodeFamilyF w)
  | whole (i : Instr) (hop : opField w ∉ [0x0, 0x8, 0xE, 0xF]) (henc : encode i = w) : DecodeCase w (.instr i)

theorem decodeCase (w : Word) : DecodeCase w (decode w) := by
  unfold decode
  split
  case h_1 hop => exact .family0 hop
  case h_9 hop => exact .family8 hop
  case h_15 hop => exact .familyE hop
  case h_16 =>
    have hop : opField w = 0xF := by
      simp only [imp_false] at *
      bv_omega
    exact .familyF hop
  case h_2 hop | h_3 hop | h_11 hop | h_12 hop => exact .whole _ (by simp [hop]) (encAddr_eq_of_fields hop rfl)
  case h_4 hop | h_5 hop | h_7 hop | h_8 hop | h_13 hop =>
    exact .whole _ (by simp [hop]) (encXKK_eq_of_fields hop rfl)
  case h_6 hop | h_10 hop | h_14 hop => exact .whole _ (by simp [hop]) (encXYN_eq_of_fields hop rfl)

theorem encode_of_decode {w : Word} {i : Instr} (h : decode w = .instr i) : encode i = w := by
  have hcase := decodeCase w
  generalize decode w = d at h hcase
  cases hcase with
  | family0 hop => exact encode_of_decodeFamily0 hop h
  | family8 hop => exact encode_of_decodeFamily8 hop h
  | familyE hop => exact encode_of_decodeFamilyE hop h
  | familyF hop => exact encode_of_decodeFamilyF hop h
  | whole i hop henc => cases h; exact henc

/-- Settles O34: in each family the fields compared and the fields kept make up the whole word. -/
theorem encodeOfDecode : Obligations.EncodeOfDecode := fun _ _ h => encode_of_decode h

/-! The rows of the opcode map (R86): words a mask sends to one match agree in the fields the decoder compares. -/

theorem opField_congr_of_and_family {w v : Word} (h : w &&& 0xF000 = v &&& 0xF000) : opField w = opField v := by
  rw [← encAddr_fields w, ← encAddr_fields v, encAddr_and_family, encAddr_and_family] at h
  simpa only [opField_encAddr] using congrArg opField h

theorem fields_congr_of_and_subXYN {w v : Word} (h : w &&& 0xF00F = v &&& 0xF00F) :
    opField w = opField v ∧ nField w = nField v := by
  rw [← encXYN_fields w, ← encXYN_fields v, encXYN_and_sub, encXYN_and_sub] at h
  exact ⟨by simpa only [opField_encXYN] using congrArg opField h,
    by simpa only [nField_encXYN] using congrArg nField h⟩

theorem fields_congr_of_and_subXKK {w v : Word} (h : w &&& 0xF0FF = v &&& 0xF0FF) :
    opField w = opField v ∧ kkField w = kkField v := by
  rw [← encXKK_fields w, ← encXKK_fields v, encXKK_and_sub, encXKK_and_sub] at h
  exact ⟨by simpa only [opField_encXKK] using congrArg opField h,
    by simpa only [kkField_encXKK] using congrArg kkField h⟩

/-- The word of every instruction is a word of its row. -/
theorem encode_matchesRow (i : Instr) : Laws.MatchesRow.Statement i := by
  open Laws.MatchesRow in
  cases i
  exacts [cls, ret, jp _, call _, seByte _ _, sneByte _ _, seReg _ _ _, ldByte _ _, addByte _ _, ldReg _ _, orReg _ _,
    andReg _ _, xorReg _ _, addReg _ _, sub _ _, shr _ _, subn _ _, shl _ _, sneReg _ _ _, ldI _, jpV0 _, rnd _ _,
    drw _ _ _, skp _, sknp _, ldVxDT _, ldVxK _, ldDTVx _, ldSTVx _, addI _, ldF _, ldB _, storeRegs _, loadRegs _]

/-- A word that matches a row decodes to an instruction of that row: it agrees with a word of the row in the fields that
select the row. -/
theorem exists_decode_of_matches_row {w : Word} {i : Instr} (h : w &&& i.row.1 = i.row.2) :
    ∃ j, decode w = .instr j ∧ j.row = i.row := by
  have hmask : w &&& i.row.1 = encode i &&& i.row.1 := h.trans (encode_matchesRow i).symm
  cases i with
  | cls | ret => rw [BitVec.and_allOnes.symm.trans h]; exact ⟨_, rfl, rfl⟩
  | jp | call | ldI | jpV0 =>
    have hop := (opField_congr_of_and_family hmask).trans (opField_encAddr _ _)
    exact ⟨_, by rw [decode, hop]; rfl, by rfl⟩
  | seByte | sneByte | ldByte | addByte | rnd =>
    have hop := (opField_congr_of_and_family hmask).trans (opField_encXKK _ _ _)
    exact ⟨_, by rw [decode, hop]; rfl, by rfl⟩
  | seReg | sneReg | drw =>
    have hop := (opField_congr_of_and_family hmask).trans (opField_encXYN _ _ _ _)
    exact ⟨_, by rw [decode, hop]; rfl, by rfl⟩
  | ldReg | orReg | andReg | xorReg | addReg | sub | shr | subn | shl =>
    obtain ⟨hop, hn⟩ := fields_congr_of_and_subXYN hmask
    have hn := hn.trans (nField_encXYN _ _ _ _)
    exact ⟨_, by rw [decode_of_opField_8 (hop.trans (opField_encXYN _ _ _ _)), decodeFamily8, hn]; rfl, by rfl⟩
  | skp | sknp =>
    obtain ⟨hop, hkk⟩ := fields_congr_of_and_subXKK hmask
    have hkk := hkk.trans (kkField_encXKK _ _ _)
    exact ⟨_, by rw [decode_of_opField_E (hop.trans (opField_encXKK _ _ _)), decodeFamilyE, hkk]; rfl, by rfl⟩
  | ldVxDT | ldVxK | ldDTVx | ldSTVx | addI | ldF | ldB | storeRegs | loadRegs =>
    obtain ⟨hop, hkk⟩ := fields_congr_of_and_subXKK hmask
    have hkk := hkk.trans (kkField_encXKK _ _ _)
    exact ⟨_, by rw [decode_of_opField_F (hop.trans (opField_encXKK _ _ _)), decodeFamilyF, hkk]; rfl, by rfl⟩

/-- Settles O35: a word that decodes to an instruction is its encoding, and that lies in its row. -/
theorem decodeFollowsOpcodeMap : Obligations.DecodeFollowsOpcodeMap := by
  refine fun w i => ⟨exists_decode_of_matches_row, ?_⟩
  rintro ⟨j, hj, hrow⟩
  rw [← encode_of_decode hj, ← hrow]
  exact encode_matchesRow j

/-! The unimplemented words (R87), family by family. -/

theorem decodeFamily0_unimplemented_iff (w : Word) :
    (∃ u, decodeFamily0 w = .unimplemented u) ↔ addrField w ≠ 0x0E0 ∧ addrField w ≠ 0x0EE := by
  unfold decodeFamily0
  split_ifs <;> simp_all

theorem decodeFamily8_unimplemented_iff (w : Word) :
    (∃ u, decodeFamily8 w = .unimplemented u) ↔ 8 ≤ nField w ∧ nField w ≠ 0xE := by
  unfold decodeFamily8
  split
  case h_10 =>
    have hn : 8 ≤ nField w ∧ nField w ≠ 0xE := by
      simp only [imp_false] at *
      bv_omega
    exact ⟨fun _ => hn, fun _ => ⟨_, rfl⟩⟩
  all_goals simp [*]

theorem decodeFamilyE_unimplemented_iff (w : Word) :
    (∃ u, decodeFamilyE w = .unimplemented u) ↔ kkField w ≠ 0x9E ∧ kkField w ≠ 0xA1 := by
  unfold decodeFamilyE
  split <;> simp_all

theorem decodeFamilyF_unimplemented_iff (w : Word) :
    (∃ u, decodeFamilyF w = .unimplemented u) ↔
      kkField w ∉ [0x07, 0x0A, 0x15, 0x18, 0x1E, 0x29, 0x33, 0x55, 0x65] := by
  unfold decodeFamilyF
  split <;> simp_all

theorem decode_unimplemented_iff (w : Word) :
    (∃ u, decode w = .unimplemented u) ↔
      (opField w = 0x0 ∧ addrField w ≠ 0x0E0 ∧ addrField w ≠ 0x0EE) ∨
      (opField w = 0x8 ∧ 8 ≤ nField w ∧ nField w ≠ 0xE) ∨
      (opField w = 0xE ∧ kkField w ≠ 0x9E ∧ kkField w ≠ 0xA1) ∨
      (opField w = 0xF ∧ kkField w ∉ [0x07, 0x0A, 0x15, 0x18, 0x1E, 0x29, 0x33, 0x55, 0x65]) := by
  have hcase := decodeCase w
  generalize decode w = d at hcase
  cases hcase with
  | family0 hop => rw [decodeFamily0_unimplemented_iff]; simp [hop]
  | family8 hop => rw [decodeFamily8_unimplemented_iff]; simp [hop]
  | familyE hop => rw [decodeFamilyE_unimplemented_iff]; simp [hop]
  | familyF hop => rw [decodeFamilyF_unimplemented_iff]; simp [hop]
  | whole i hop henc =>
    refine ⟨fun ⟨_, hu⟩ => (by cases hu), ?_⟩
    rintro (⟨h, -⟩ | ⟨h, -⟩ | ⟨h, -⟩ | ⟨h, -⟩) <;> exact absurd (by simp [h]) hop

/-- Settles O36: the fields of `decode_unimplemented_iff` written as numbers. -/
theorem unimplementedWordsAreListed : Obligations.UnimplementedWordsAreListed := by
  intro w
  have hw := w.isLt
  rw [decode_unimplemented_iff]
  simp only [← BitVec.toNat_inj, BitVec.le_def, ne_eq, opField_toNat, addrField_toNat, nField_toNat, kkField_toNat,
    List.mem_cons, List.not_mem_nil, or_false, BitVec.ofNat_eq_ofNat, BitVec.toNat_ofNat]
  omega

end Sys2Proof
end

section
/-! PROOF. The report of a step: a waiting machine has reported `WaitForKeyboard`, and nothing reports `Error`
(30_encoding.md R90, 60_exceptions.md R205, R206, R215). -/

namespace Sys2Proof.Machine

@[simp] theorem keyPress_status (k : Key) (s : State) : (keyPress k s).status = s.status := by
  unfold keyPress; split <;> rfl

/-- `WaitReported` depends on the latch and `STATUS` alone. -/
theorem WaitReported.congr {s t : State} (hw : t.waiting = s.waiting) (hst : t.status = s.status) (h : WaitReported s) :
    WaitReported t := by
  unfold WaitReported
  rwa [hw, hst]

theorem waitReported_of_not_waiting {s : State} (h : s.waiting = false) : WaitReported s :=
  fun hw => absurd (h.symm.trans hw) Bool.false_ne_true

/-- An instruction that runs with the latch clear sets it only as Fx0A, which reports `WaitForKeyboard` (R171, R205). -/
theorem exec_waitReported {i : Instr} {s t : State} (hclear : s.waiting = false) (hx : exec i s = .next t) :
    WaitReported t := by
  intro hw
  have frame := exec_frame i s t hx
  exact frame.wait (frame.latch (by simp [hw, hclear]))

theorem step_waitReported {s t : State} (hr : WaitReported s) (h : step s = .next t) : WaitReported t := by
  cases stepCase_of_step h with
  | reset => exact waitReported_of_not_waiting rfl
  | keyPress k => exact waitReported_of_not_waiting (keyPress_waiting k s.takeEvent)
  | loadProgram | timerTick | keyRelease => exact hr.congr (by simp) (by simp)
  | waitingTick => exact fun _ => rfl
  | unimplementedTick u hn => exact waitReported_of_not_waiting (s.fetchesNext_iff.mp hn).2
  | instrTick i t hn hf hx => exact exec_waitReported (s := s.takeEvent) (s.fetchesNext_iff.mp hn).2 hx

/-- No instruction reports `Error` (R90), and an event outside a tick keeps `STATUS` or resets it. -/
theorem step_status_ne_error {s t : State} (hs : s.status ≠ .error) (h : step s = .next t) : t.status ≠ .error := by
  cases stepCase_of_step h with
  | reset | waitingTick | unimplementedTick => exact Signal.noConfusion
  | loadProgram | timerTick | keyPress | keyRelease => simpa using hs
  | instrTick i t hn hf hx => exact (exec_frame i s.takeEvent t hx).report

/-- Settles O52: both are kept event by event. -/
theorem reportedStatusIsSound : Obligations.ReportedStatusIsSound :=
  fun _ _ h => ⟨fun hr => step_waitReported hr h, fun hs => step_status_ne_error hs h⟩

end Sys2Proof.Machine
end

section
/-! PROOF. Family 0x0: the clear, the return and the return after a call (40_family_0_cls_ret.md R100, R101;
95_test_vectors.md Q4). -/

namespace Sys2Proof.Machine

/-- Settles O22: the framebuffer is the blank screen, and a clear writes nothing else. -/
theorem clearTurnsEveryPixelOff : Obligations.ClearTurnsEveryPixelOff :=
  fun _ => ⟨_, rfl, Screen.pixel_blank, fun _ _ => rfl, ⟨rfl, rfl⟩,
    rfl, ⟨rfl, rfl⟩, ⟨rfl, rfl⟩, sameMemory_of_mem_eq rfl rfl, ⟨rfl, rfl⟩, ⟨rfl, rfl, rfl⟩, Bool.or_false _, rfl⟩

/-! What a return leaves. -/

/-- What a return leaves: `PC` two past the word on top, `SP` one down, `IncrementPC` reported (R101). -/
def State.leave (s : State) : State :=
  ((s.setPc s.top).drop).endTick .incrementPC

theorem exec_ret (s : State) : exec .ret s = .next s.leave := rfl

@[simp] theorem State.leave_pc (s : State) : s.leave.pc = s.top + 2 := rfl

@[simp] theorem State.leave_sp (s : State) : s.leave.sp = s.sp - 1 := rfl

@[simp] theorem State.leave_stack (s : State) : s.leave.stack = s.stack := rfl

@[simp] theorem State.leave_status (s : State) : s.leave.status = .incrementPC := rfl

@[simp] theorem State.slot_leave (s : State) (j : Fin 16) : s.leave.slot j = s.slot j := rfl

/-- The word on top after a call is the address of the call. -/
@[simp] theorem State.top_enter (s : State) (addr : Addr) : (s.enter addr).top = s.pc := s.top_push s.pc

/-! The frame of a call and of a return: each writes `PC` and the stack alone, then ends its tick with no fault. -/

theorem KeptButStack.refl (s : State) : KeptButStack s s :=
  ⟨fun _ _ => rfl, rfl, ⟨rfl, rfl⟩, rfl, fun _ => rfl, ⟨rfl, rfl⟩, ⟨rfl, rfl, rfl⟩, rfl, rfl⟩

theorem KeptButStack.endTick {s t : State} {sig : Signal} (h : KeptButStack s t) (hsig : sig.isFault = false) :
    KeptButStack s (t.endTick sig) := by
  obtain ⟨hregs, hi, htimers, hfb, hmem, hlatch, hhost, hmark, hdraws⟩ := h
  exact ⟨hregs, hi, htimers, hfb, hmem, hlatch, hhost, by simp [hmark, hsig], hdraws⟩

theorem KeptButStack.enter {s t : State} (h : KeptButStack s t) (addr : Addr) : KeptButStack s (t.enter addr) :=
  KeptButStack.endTick (t := (t.push t.pc).setPc (wordOfAddr addr)) h rfl

theorem KeptButStack.leave {s t : State} (h : KeptButStack s t) : KeptButStack s t.leave :=
  KeptButStack.endTick (t := (t.setPc t.top).drop) h rfl

/-- Settles O9: the slot `SP mod 16` is the top that `State.leave` reads. -/
theorem returnPopsSlot : Obligations.ReturnPopsSlot := by
  refine fun s => ⟨s.leave, exec_ret s, fun j hj => ?_, ?_, s.leave_stack, s.leave_status, (KeptButStack.refl s).leave⟩
  · have htop : j = slotOf s.sp := Fin.ext hj
    rw [State.leave_pc, State.top, htop]
  · rw [State.leave_sp]
    bv_omega

/-- Settles O10: the call puts its own address on top, the return takes it from there and writes no slot. -/
theorem callThenReturnResumes : Obligations.CallThenReturnResumes := by
  intro addr s hroom
  have hsucc : (s.sp + 1).toNat = (s.sp.toNat + 1) % 256 := BitVec.toNat_add s.sp 1
  have hfits : (s.sp + 1).toNat ≤ 0x0F := hsucc ▸ hroom
  refine ⟨(s.enter addr).leave, ?_, ?_, ?_, fun j hj => ?_, ((KeptButStack.refl s).enter addr).leave⟩
  · rw [execAll_call_cons addr _ (s.stackFull_eq_false_iff.mpr hfits)]
    simp only [execAll, exec_ret]
  · rw [State.leave_pc, State.top_enter]
  · rw [State.leave_sp, State.enter_sp, BitVec.add_sub_cancel]
  · have hother : j ≠ slotOf (s.sp + 1) := fun e => hj (by rw [e, slotOf_val hfits, hsucc])
    rw [State.slot_leave, State.slot_enter, if_neg hother]

end Sys2Proof.Machine
end

section
/-! PROOF. Families 0x1, 0x2 and 0xB: the call and the two jumps (41_family_1_2_B_jump_call.md R110 to R112). -/

namespace Sys2Proof.Machine

@[simp] theorem wordOfAddr_toNat (addr : Addr) : (wordOfAddr addr).toNat = addr.toNat :=
  BitVec.toNat_setWidth_of_le (by decide)

@[simp] theorem wordOfByte_toNat (b : Byte) : (wordOfByte b).toNat = b.toNat :=
  BitVec.toNat_setWidth_of_le (by decide)

/-! The call. -/

/-- The stack pointer a call tests and moves to, as a number (R29, R111). -/
theorem State.sp_succ_toNat (s : State) : (s.sp + 1).toNat = (s.sp.toNat + 1) % 256 := BitVec.toNat_add s.sp 1

@[simp] theorem State.enter_pc (s : State) (addr : Addr) : (s.enter addr).pc = wordOfAddr addr := BitVec.add_zero _

/-- Below capacity, the slot a call writes is the one numbered as the incremented `SP`. -/
theorem State.eq_slotOf_sp_succ_iff {s : State} (hfits : (s.sp + 1).toNat ≤ 0x0F) (j : Fin 16) :
    j = slotOf (s.sp + 1) ↔ j.val = (s.sp.toNat + 1) % 256 := by
  rw [Fin.ext_iff, slotOf_val hfits, s.sp_succ_toNat]

/-- A tick that ends in `StackOverflow` moves nothing: the driver adds 0 to `PC` (R208). -/
theorem State.endTick_stackOverflow (s : State) :
    s.endTick .stackOverflow = { s with status := .stackOverflow, faultMark := true } := by
  simp [State.endTick, Signal.pcAdvance, Signal.isFault]

/-- Settles O7: a call below capacity leaves `State.enter`, whose only written slot is the one the new `SP` names. -/
theorem callPushesItsOwnAddress : Obligations.CallPushesItsOwnAddress := by
  intro addr s hroom
  have hfits : (s.sp + 1).toNat ≤ 0x0F := s.sp_succ_toNat ▸ hroom
  refine ⟨s.enter addr, exec_call_of_not_stackFull addr (s.stackFull_eq_false_iff.mpr hfits), ?_, fun j => ?_, ?_,
    s.enter_status addr, (KeptButStack.refl s).enter addr⟩
  · rw [State.enter_sp, s.sp_succ_toNat]
  · rw [State.slot_enter]
    exact if_congr (State.eq_slotOf_sp_succ_iff hfits j) rfl rfl
  · rw [State.enter_pc, wordOfAddr_toNat]

/-- Settles O8: at capacity the call touches no register and no slot, it only ends its tick with `StackOverflow`. -/
theorem callAtCapacityOverflows : Obligations.CallAtCapacityOverflows := by
  intro addr s hfull
  have habove : 0x0F < (s.sp + 1).toNat := s.sp_succ_toNat ▸ hfull
  rw [exec_call_of_stackFull addr (s.stackFull_iff.mpr habove), State.endTick_stackOverflow]

/-! The jumps. -/

/-- A jump stores its target less 2 and the driver adds the 2 back, both mod 65536, so the tick ends at the target whatever
it is (R110, R208). -/
theorem jump_endTick_frame (s : State) (target : Word) :
    ((s.setPc (target - 2)).endTick .incrementPC).pc = target ∧
      ((s.setPc (target - 2)).endTick .incrementPC).status = .incrementPC ∧
      KeptButPc s ((s.setPc (target - 2)).endTick .incrementPC) := by
  obtain ⟨hpc, hstatus, hkept⟩ := setPc_endTick_frame s (target - 2) .incrementPC rfl
  exact ⟨hpc.trans (BitVec.sub_add_cancel target 2), hstatus, hkept⟩

/-- A 12-bit address and a byte have a sum below 65536, so the 16-bit sum does not wrap (R112). -/
theorem wordOfAddr_add_wordOfByte_toNat (addr : Addr) (b : Byte) :
    (wordOfAddr addr + wordOfByte b).toNat = addr.toNat + b.toNat := by
  have haddr := addr.isLt
  have hb := b.isLt
  rw [BitVec.toNat_add, wordOfAddr_toNat, wordOfByte_toNat, Nat.mod_eq_of_lt (by omega)]

/-- Settles O5: a jump whose target is the address. -/
theorem jumpGoesToAddress : Obligations.JumpGoesToAddress := by
  intro addr s
  obtain ⟨hpc, hstatus, hkept⟩ := jump_endTick_frame s (wordOfAddr addr)
  exact ⟨_, rfl, by rw [hpc, wordOfAddr_toNat], hstatus, hkept⟩

/-- Settles O6: a jump whose target is the sum of the address and `V[0]`, which does not wrap. -/
theorem jumpWithOffsetIsNotReduced : Obligations.JumpWithOffsetIsNotReduced := by
  intro addr s
  obtain ⟨hpc, hstatus, hkept⟩ := jump_endTick_frame s (wordOfAddr addr + wordOfByte (s.reg 0))
  exact ⟨_, rfl, by rw [hpc, wordOfAddr_add_wordOfByte_toNat], hstatus, hkept⟩

end Sys2Proof.Machine
end

section
/-! PROOF. Families 0x3, 0x4, 0x5, 0x9 and 0xE: the conditional skips (42_family_3_4_5_9_E_skip.md R119 to R125). -/

namespace Sys2Proof.Machine

/-- A skip, taken or not, writes `PC` alone and ends its tick with `IncrementPC` (R119). -/
theorem skipIf_eq (cond : Bool) (s : State) :
    skipIf cond s = .next ((s.setPc (if cond = true then s.pc + 2 else s.pc)).endTick .incrementPC) := by
  cases cond <;> rfl

/-- The skip convention on the condition `p` that `cond` decides: the 2 of a taken skip and the 2 of the driver add up to
the 4 (R119, R208). -/
theorem skipIf_frame {cond : Bool} {p : Prop} [Decidable p] (hp : cond = true ↔ p) (s : State) :
    ∃ t, skipIf cond s = .next t ∧ t.pc = (if p then s.pc + 4 else s.pc + 2) ∧ t.status = .incrementPC ∧
      KeptButPc s t := by
  obtain ⟨hpc, hstatus, hkept⟩ := setPc_endTick_frame s (if cond = true then s.pc + 2 else s.pc) .incrementPC rfl
  refine ⟨_, skipIf_eq cond s, ?_, hstatus, hkept⟩
  calc _ = (if cond = true then s.pc + 2 else s.pc) + 2 := hpc
    _ = if cond = true then s.pc + 2 + 2 else s.pc + 2 := ite_add ..
    _ = if p then s.pc + 4 else s.pc + 2 := if_congr hp (BitVec.add_assoc s.pc 2 2) rfl

/-- The skip on the complement of `p`. -/
theorem skipIf_frame_not {cond : Bool} {p : Prop} [Decidable p] (hp : cond = true ↔ ¬ p) (s : State) :
    ∃ t, skipIf cond s = .next t ∧ t.pc = (if p then s.pc + 2 else s.pc + 4) ∧ t.status = .incrementPC ∧
      KeptButPc s t := by
  simpa only [ite_not] using skipIf_frame hp s

/-- Settles O12: 3xkk skips on the comparison, 4xkk on its complement. -/
theorem skipComparesImmediate : Obligations.SkipComparesImmediate :=
  fun _ _ s => ⟨skipIf_frame beq_iff_eq s, skipIf_frame_not bne_iff_ne s⟩

/-- Settles O13: neither handler is given the low nibble, and the two skip on complementary conditions. -/
theorem skipComparesRegisters : Obligations.SkipComparesRegisters :=
  fun _ _ _ s => ⟨skipIf_frame beq_iff_eq s, skipIf_frame_not bne_iff_ne s⟩

/-- The key whose number is `V[x] mod 16` is the key the skips test (R124, D21). -/
theorem State.namedKey_eq {s : State} {x : RegIdx} {k : Key} (hk : k.val = (s.reg x).toNat % 16) : s.namedKey x = k :=
  Fin.ext hk.symm

/-- Settles O14: Ex9E skips on the state of the key named, ExA1 on its complement; the latch is not read. -/
theorem skipTestsNamedKey : Obligations.SkipTestsNamedKey := by
  intro x k s hk
  obtain rfl := State.namedKey_eq hk
  exact ⟨skipIf_frame Iff.rfl s, skipIf_frame_not Bool.not_iff_not s⟩

end Sys2Proof.Machine
end

section
/-! PROOF. Families 0x6, 0x7, 0xA and 0xC: the loads, the add and the random byte (43_family_6_7_A_C_load.md R130 to R133). -/

namespace Sys2Proof.Machine

/-- Settles O1: the one register written is `V[x]`. -/
theorem loadByteWritesRegister : Obligations.LoadByteWritesRegister :=
  fun x kk s => ⟨_, rfl, setReg_endTick_frame s x kk⟩

/-- Settles O2: the one register written is `V[x]`, and the sum of two bytes is their sum mod 256. -/
theorem addByteWrapsWithoutFlag : Obligations.AddByteWrapsWithoutFlag := by
  intro x kk s
  obtain ⟨hreg, hframe⟩ := setReg_endTick_frame s x (s.reg x + kk)
  exact ⟨_, rfl, by rw [hreg, BitVec.toNat_add], hframe⟩

/-- An instruction that writes `I` alone and ends with `IncrementPC`. -/
theorem setIndex_endTick_frame (s : State) (w : Word) :
    ({ s with i := w }.endTick .incrementPC).i = w ∧ AdvancedTwo s ({ s with i := w }.endTick .incrementPC) ∧
      KeptButIndex s ({ s with i := w }.endTick .incrementPC) :=
  ⟨rfl, ⟨rfl, rfl⟩, fun _ _ => rfl, ⟨rfl, rfl⟩, ⟨rfl, rfl⟩, rfl, sameMemory_of_mem_eq rfl rfl, ⟨rfl, rfl⟩,
    ⟨rfl, rfl, rfl⟩, Bool.or_false _, rfl⟩

/-- Settles O3: the one field written is `I`, and zero extension keeps the number. -/
theorem loadIndexTakesAddress : Obligations.LoadIndexTakesAddress := by
  intro addr s
  obtain ⟨hi, hframe⟩ := setIndex_endTick_frame s (wordOfAddr addr)
  exact ⟨_, rfl, by rw [hi, wordOfAddr_toNat], hframe⟩

/-- A masked byte has no bit outside its mask. -/
theorem and_mask_and_not_mask (r kk : Byte) : (r &&& kk) &&& ~~~kk = 0 := by
  rw [BitVec.and_assoc, BitVec.and_not_self]
  exact BitVec.and_zero

/-- A masked byte is at most its mask. -/
theorem and_mask_toNat_le (r kk : Byte) : (r &&& kk).toNat ≤ kk.toNat := by
  rw [BitVec.toNat_and]
  exact Nat.and_le_right

/-- Settles O4: the draw is counted, then the one register written is `V[x]`; what the mask promises holds of every draw. -/
theorem randomByteIsMasked : Obligations.RandomByteIsMasked := by
  intro x kk s
  obtain ⟨hreg, hregs, hadvanced, hkept, hdraws⟩ :=
    setReg_endTick_frame { s with draws := s.draws + 1 } x (Config.freeByte s.draws &&& kk)
  refine ⟨_, rfl, hreg, ?_, ?_, hdraws, hregs, hadvanced, hkept⟩
  · rw [hreg, and_mask_and_not_mask]
  · rw [hreg]
    exact and_mask_toNat_le _ kk

end Sys2Proof.Machine
end

section
/-! PROOF. Family 0x8: the copy, the logic operations, the sums, the differences and the shifts (44_family_8_alu.md R140 to
R150). -/

namespace Sys2Proof.Machine

/-- Settles O15: the one register written is `V[x]`. -/
theorem copyRegister : Obligations.CopyRegister :=
  fun x y s => ⟨_, rfl, setReg_endTick_frame s x (s.reg y)⟩

/-- Settles O16: each of the three writes its result to `V[x]` and touches no other register. -/
theorem logicWritesNoFlag : Obligations.LogicWritesNoFlag := by
  rintro x y s i res (⟨rfl, rfl⟩ | ⟨rfl, rfl⟩ | ⟨rfl, rfl⟩)
  · exact ⟨_, rfl, setReg_endTick_frame s x (s.reg x ||| s.reg y)⟩
  · exact ⟨_, rfl, setReg_endTick_frame s x (s.reg x &&& s.reg y)⟩
  · exact ⟨_, rfl, setReg_endTick_frame s x (s.reg x ^^^ s.reg y)⟩

/-! The flags as values: what `VF` holds after each flag-writing instruction (R26, R140). -/

theorem flagByte_carryOut (a b : Byte) : flagByte (carryOut a b) = if 255 < a.toNat + b.toNat then 1 else 0 := by
  simp [flagByte, carryOut]

theorem flagByte_noBorrow (a b : Byte) : flagByte (noBorrow a b) = if b.toNat ≤ a.toNat then 1 else 0 := by
  simp [flagByte, noBorrow]

theorem flagByte_toNat (c : Bool) : (flagByte c).toNat = c.toNat := by
  cases c <;> rfl

/-- Bit 0 of a byte is its remainder by 2 (R148). -/
theorem flagByte_shiftedOutRight_toNat (b : Byte) : (flagByte (shiftedOutRight b)).toNat = b.toNat % 2 := by
  rw [flagByte_toNat, shiftedOutRight, BitVec.getLsbD, Nat.toNat_testBit, pow_zero, Nat.div_one]

/-- Bit 7 of a byte is its quotient by 128, which a byte keeps below 2 (R150). -/
theorem flagByte_shiftedOutLeft_toNat (b : Byte) : (flagByte (shiftedOutLeft b)).toNat = b.toNat / 128 := by
  have hb := b.isLt
  rw [flagByte_toNat, shiftedOutLeft, BitVec.getLsbD, Nat.toNat_testBit]
  omega

/-! The results as numbers (R140). -/

theorem byte_sub_toNat (a b : Byte) : (a - b).toNat = (a.toNat + 256 - b.toNat) % 256 := by
  bv_omega

theorem byte_shiftRight_one_toNat (b : Byte) : (b >>> 1).toNat = b.toNat / 2 := by
  rw [BitVec.toNat_ushiftRight, Nat.shiftRight_eq_div_pow, pow_one]

theorem byte_shiftLeft_one_toNat (b : Byte) : (b <<< 1).toNat = 2 * b.toNat % 256 := by
  rw [BitVec.toNat_shiftLeft, Nat.shiftLeft_eq, pow_one, mul_comm]

/-! The flag-writing instructions: each is one `State.setRegFlag` on operands read before it (R141). -/

/-- Settles O17: the result is the sum of the old values mod 256 and the flag its carry. -/
theorem addSetsCarry : Obligations.AddSetsCarry := by
  intro x y s
  obtain ⟨hres, hflag, hframe⟩ :=
    setRegFlag_endTick_frame s x (s.reg x + s.reg y) (carryOut (s.reg x) (s.reg y))
  exact ⟨_, rfl, fun hx => by rw [hres hx, BitVec.toNat_add], hflag.trans (flagByte_carryOut _ _), hframe⟩

/-- Settles O18: the result is the difference of the old values mod 256 and the flag says that nothing was borrowed. -/
theorem subSetsNoBorrow : Obligations.SubSetsNoBorrow := by
  intro x y s
  obtain ⟨hres, hflag, hframe⟩ :=
    setRegFlag_endTick_frame s x (s.reg x - s.reg y) (noBorrow (s.reg x) (s.reg y))
  exact ⟨_, rfl, fun hx => by rw [hres hx, byte_sub_toNat], hflag.trans (flagByte_noBorrow _ _), hframe⟩

/-- Settles O20: as `subSetsNoBorrow`, with the operands exchanged and the result in `V[y]`. -/
theorem subnWritesVy : Obligations.SubnWritesVy := by
  intro x y s
  obtain ⟨hres, hflag, hframe⟩ :=
    setRegFlag_endTick_frame s y (s.reg y - s.reg x) (noBorrow (s.reg y) (s.reg x))
  exact ⟨_, rfl, fun hy => by rw [hres hy, byte_sub_toNat], hflag.trans (flagByte_noBorrow _ _), hframe⟩

/-- Settles O19: the result is half the old `V[y]` and the flag its bit 0; the old `V[x]` is not read. -/
theorem shiftRightTakesVy : Obligations.ShiftRightTakesVy := by
  intro x y s
  obtain ⟨hres, hflag, hframe⟩ := setRegFlag_endTick_frame s x (s.reg y >>> 1) (shiftedOutRight (s.reg y))
  exact ⟨_, rfl, fun hx => by rw [hres hx, byte_shiftRight_one_toNat],
    by rw [hflag, flagByte_shiftedOutRight_toNat], hframe⟩

/-- Settles O21: the result is twice the old `V[y]` mod 256 and the flag its bit 7; the old `V[x]` is not read. -/
theorem shiftLeftTakesVy : Obligations.ShiftLeftTakesVy := by
  intro x y s
  obtain ⟨hres, hflag, hframe⟩ := setRegFlag_endTick_frame s x (s.reg y <<< 1) (shiftedOutLeft (s.reg y))
  exact ⟨_, rfl, fun hx => by rw [hres hx, byte_shiftLeft_one_toNat],
    by rw [hflag, flagByte_shiftedOutLeft_toNat], hframe⟩

end Sys2Proof.Machine
end

section
/-! PROOF. Family 0xD: the sprite draw (45_family_D_draw.md R160). -/

namespace Sys2Proof.Machine

/-- What Dxyn leaves: the framebuffer drawn on, `VF` = collision, `IncrementPC` reported (R160). -/
def State.afterDraw (s : State) (x y : RegIdx) (n : Fin 16) : State :=
  (({ s with fb := (s.drawSprite x y n.val).fb }).setReg flagReg (flagByte (s.drawSprite x y n.val).hit)).endTick
    .incrementPC

theorem exec_drw (x y : RegIdx) (n : Fin 16) (s : State) : exec (.drw x y n) s = .next (s.afterDraw x y n) := rfl

theorem State.flag_afterDraw (s : State) (x y : RegIdx) (n : Fin 16) :
    (s.afterDraw x y n).reg flagReg = flagByte (s.drawSprite x y n.val).hit :=
  State.reg_setReg_same _ flagReg _

/-- Dxyn writes the framebuffer, and of the registers `VF` alone. -/
theorem State.afterDraw_frame (s : State) (x y : RegIdx) (n : Fin 16) :
    RegsKeptBut (fun r => r = flagReg) s (s.afterDraw x y n) ∧ AdvancedTwo s (s.afterDraw x y n) ∧
      KeptButScreen s (s.afterDraw x y n) := by
  obtain ⟨-, hregs, hadvanced, ⟨hi, hstack, htimers, -, hmem, hlatch, hhost, hmark⟩, hdraws⟩ :=
    setReg_endTick_frame { s with fb := (s.drawSprite x y n.val).fb } flagReg (flagByte (s.drawSprite x y n.val).hit)
  exact ⟨hregs, hadvanced, hi, hstack, htimers, hmem, hlatch, hhost, hmark, hdraws⟩

/-! The pixels. -/

/-- A sprite has at most 15 rows, so `drawRows_pixel` and `drawRows_hit` apply to it: no row wraps onto itself. -/
theorem State.loadBytes_length_le (s : State) (a : Word) (n : Fin 16) : (s.loadBytes a n.val).length ≤ 32 := by
  rw [State.loadBytes_length]
  omega

theorem State.pixel_afterDraw (s : State) (x y : RegIdx) (n : Fin 16) (r : Fin 32) (c : Fin 64) :
    (s.afterDraw x y n).pixel r c =
      (s.pixel r c).xor (rowsLit (s.startCol x) (s.loadBytes s.i n.val) (s.startRow y) r c) :=
  drawRows_pixel _ _ (s.loadBytes_length_le s.i n) _ _ r c

theorem State.pixel_afterDraw_of_spriteLit {s : State} {x y : RegIdx} {n : Fin 16} {r : Fin 32} {c : Fin 64}
    (h : s.spriteLit x y n r c) : (s.afterDraw x y n).pixel r c = !s.pixel r c := by
  rw [State.pixel_afterDraw, (rowsLit_iff_spriteLit s x y n r c).mpr h, Bool.xor_true]

theorem State.pixel_afterDraw_of_not_spriteLit {s : State} {x y : RegIdx} {n : Fin 16} {r : Fin 32} {c : Fin 64}
    (h : ¬ s.spriteLit x y n r c) : (s.afterDraw x y n).pixel r c = s.pixel r c := by
  rw [State.pixel_afterDraw, Bool.eq_false_iff.mpr (mt (rowsLit_iff_spriteLit s x y n r c).mp h), Bool.xor_false]

/-! The collision. -/

theorem State.drawSprite_hit (s : State) (x y : RegIdx) (n : Fin 16) :
    (s.drawSprite x y n.val).hit = true ↔ ∃ r c, s.spriteLit x y n r c ∧ s.pixel r c = true := by
  rw [State.drawSprite, drawRows_hit _ _ (s.loadBytes_length_le s.i n)]
  simp only [Bool.false_eq_true, false_or, rowsLit_iff_spriteLit, State.pixel]

/-- The pixels the sprite covers and finds lit are the pixels the draw turns off. -/
theorem State.spriteLit_and_pixel_iff (s : State) (x y : RegIdx) (n : Fin 16) (r : Fin 32) (c : Fin 64) :
    s.spriteLit x y n r c ∧ s.pixel r c = true ↔ s.pixel r c = true ∧ (s.afterDraw x y n).pixel r c = false := by
  by_cases h : s.spriteLit x y n r c
  · simp [h, State.pixel_afterDraw_of_spriteLit h]
  · simp +contextual [h, State.pixel_afterDraw_of_not_spriteLit h]

theorem flagByte_eq_one_iff (c : Bool) : flagByte c = 1 ↔ c = true := by
  cases c <;> decide

theorem State.flag_afterDraw_eq_one_iff (s : State) (x y : RegIdx) (n : Fin 16) :
    (s.afterDraw x y n).reg flagReg = 1 ↔ ∃ r c, s.spriteLit x y n r c ∧ s.pixel r c = true := by
  rw [State.flag_afterDraw, flagByte_eq_one_iff, State.drawSprite_hit]

theorem State.flag_afterDraw_eq_zero {s : State} {x y : RegIdx} {n : Fin 16}
    (h : ¬ ∃ r c, s.spriteLit x y n r c ∧ s.pixel r c = true) : (s.afterDraw x y n).reg flagReg = 0 := by
  rw [State.flag_afterDraw, Bool.eq_false_iff.mpr (mt (s.drawSprite_hit x y n).mp h)]
  rfl

/-- Settles O23: the pixels are those of `drawRows_pixel`, and a collision is a pixel that went off. -/
theorem drawTogglesSprite : Obligations.DrawTogglesSprite := by
  intro x y n s
  refine ⟨s.afterDraw x y n, exec_drw x y n s, fun _ _ => State.pixel_afterDraw_of_spriteLit,
    fun _ _ => State.pixel_afterDraw_of_not_spriteLit, ?_, ?_, s.afterDraw_frame x y n⟩
  · rintro ⟨r, c, hoff⟩
    exact (s.flag_afterDraw_eq_one_iff x y n).mpr ⟨r, c, (s.spriteLit_and_pixel_iff x y n r c).mpr hoff⟩
  · intro hstay
    refine State.flag_afterDraw_eq_zero ?_
    rintro ⟨r, c, hhit⟩
    obtain ⟨hlit, hoff⟩ := (s.spriteLit_and_pixel_iff x y n r c).mp hhit
    exact absurd (hstay r c hlit) (by simp [hoff])

/-! The second draw. -/

/-- A draw keeps its own sprite where its coordinates are not in `VF`: it reads `V[x]`, `V[y]`, `I` and memory. -/
theorem State.spriteLit_afterDraw {x y : RegIdx} (hx : x ≠ flagReg) (hy : y ≠ flagReg) (s : State) (n : Fin 16)
    (r : Fin 32) (c : Fin 64) : (s.afterDraw x y n).spriteLit x y n r c ↔ s.spriteLit x y n r c := by
  obtain ⟨hregs, -, hi, -, -, hmem, -⟩ := s.afterDraw_frame x y n
  simp only [State.spriteLit, hregs x hx, hregs y hy, hi, hmem _]

/-- Settles O24: both draws invert the same pixels, and a covered pixel is lit before exactly one of them. -/
theorem drawTwiceRestores : Obligations.DrawTwiceRestores := by
  intro x y n s hx hy
  have hsame := State.spriteLit_afterDraw hx hy s n
  refine ⟨s.afterDraw x y n, (s.afterDraw x y n).afterDraw x y n, exec_drw x y n s, exec_drw x y n _, fun r c => ?_, ?_⟩
  · by_cases hlit : s.spriteLit x y n r c
    · rw [State.pixel_afterDraw_of_spriteLit ((hsame r c).mpr hlit), State.pixel_afterDraw_of_spriteLit hlit,
        Bool.not_not]
    · rw [State.pixel_afterDraw_of_not_spriteLit (mt (hsame r c).mp hlit),
        State.pixel_afterDraw_of_not_spriteLit hlit]
  · simp only [State.flag_afterDraw_eq_one_iff, hsame]
    constructor
    · rintro (⟨r, c, hlit, -⟩ | ⟨r, c, hlit, -⟩) <;> exact ⟨r, c, hlit⟩
    · rintro ⟨r, c, hlit⟩
      cases hbefore : s.pixel r c with
      | true => exact .inl ⟨r, c, hlit, hbefore⟩
      | false => exact .inr ⟨r, c, hlit, by rw [State.pixel_afterDraw_of_spriteLit hlit, hbefore]; rfl⟩

end Sys2Proof.Machine
end

section
/-! PROOF. Family 0xF: the timers, the key wait, the index, the font address, the decimal digits and the block store and load
(46_family_F_misc.md R170 to R178; 95_test_vectors.md Q6). -/

namespace Sys2Proof.Machine

/-! The timers and the key wait. -/

/-- An instruction that writes the timers alone and ends with `IncrementPC`. -/
theorem setTimers_endTick_frame (s : State) (delay sound : Byte) :
    AdvancedTwo s ({ s with dt := delay, st := sound }.endTick .incrementPC) ∧
      KeptButTimers s ({ s with dt := delay, st := sound }.endTick .incrementPC) :=
  ⟨⟨rfl, rfl⟩, fun _ _ => rfl, rfl, ⟨rfl, rfl⟩, rfl, sameMemory_of_mem_eq rfl rfl, ⟨rfl, rfl⟩, ⟨rfl, rfl, rfl⟩,
    Bool.or_false _, rfl⟩

/-- Settles O25: Fx07 writes the one register `V[x]`; Fx15 and Fx18 write one timer each, the other at its old value. -/
theorem timersAreReadAndSet : Obligations.TimersAreReadAndSet := fun x s =>
  ⟨⟨_, rfl, setReg_endTick_frame s x s.dt⟩,
    ⟨_, rfl, rfl, rfl, setTimers_endTick_frame s (s.reg x) s.st⟩,
    ⟨_, rfl, rfl, rfl, setTimers_endTick_frame s s.dt (s.reg x)⟩⟩

/-- Settles O26: the latch is all that is written, the driver adds 0 to `PC`, and `WaitForKeyboard` is no fault. -/
theorem keyWaitSuspends : Obligations.KeyWaitSuspends := fun _ s =>
  ⟨_, rfl, rfl, rfl, BitVec.add_zero s.pc, rfl, fun _ _ => rfl, rfl, ⟨rfl, rfl⟩, ⟨rfl, rfl⟩, rfl,
    sameMemory_of_mem_eq rfl rfl, ⟨rfl, rfl, rfl⟩, Bool.or_false _, rfl⟩

/-! The index. -/

/-- Settles O27: the one field written is `I`, and the sum of two 16-bit values is their sum mod 65536. -/
theorem addToIndexWraps : Obligations.AddToIndexWraps := by
  intro x s
  obtain ⟨hi, hframe⟩ := setIndex_endTick_frame s (s.i + wordOfByte (s.reg x))
  exact ⟨_, rfl, by rw [hi, BitVec.toNat_add, wordOfByte_toNat], hframe⟩

/-- The address of a font sprite never wraps: it is at most 0x1B0 + 5 * 255 (R68, R175). -/
theorem State.spriteAddr_toNat (s : State) (b : Byte) : (s.spriteAddr b).toNat = s.cfg.fontBase.val + 5 * b.toNat := by
  rw [State.spriteAddr, BitVec.toNat_ofNat, Nat.mod_eq_of_lt (by omega)]

/-- Settles O28: the one field written is `I`, with the address of the sprite. -/
theorem indexPointsAtSprite : Obligations.IndexPointsAtSprite := by
  intro x s
  obtain ⟨hi, hframe⟩ := setIndex_endTick_frame s (s.spriteAddr (s.reg x))
  exact ⟨_, rfl, by rw [hi, State.spriteAddr_toNat], hframe⟩

/-! The decimal digits. -/

/-- A run of stores of the three digits leaves each as a number at its own cell: every digit fits a byte. -/
theorem State.readByte_storeDigits_toNat (s : State) (a : Word) (b : Byte) :
    ((s.storeBytes a (bcdDigits b)).readByte a).toNat = b.toNat / 100 ∧
      ((s.storeBytes a (bcdDigits b)).readByte (a + 1)).toNat = b.toNat / 10 % 10 ∧
      ((s.storeBytes a (bcdDigits b)).readByte (a + 2)).toNat = b.toNat % 10 := by
  have hb := b.isLt
  have hdigit := s.readByte_storeBytes_at a (bcdDigits b) (by simp [bcdDigits])
  have hhundreds : (s.storeBytes a (bcdDigits b)).readByte a = BitVec.ofNat 8 (b.toNat / 100) := by
    simpa [bcdDigits] using hdigit 0 (by simp [bcdDigits])
  have htens : (s.storeBytes a (bcdDigits b)).readByte (a + 1) = BitVec.ofNat 8 (b.toNat / 10 % 10) :=
    hdigit 1 (by simp [bcdDigits])
  have hones : (s.storeBytes a (bcdDigits b)).readByte (a + 2) = BitVec.ofNat 8 (b.toNat % 10) :=
    hdigit 2 (by simp [bcdDigits])
  rw [hhundreds, htens, hones]
  simp only [BitVec.toNat_ofNat]
  omega

/-- Settles O29: Fx33 is a run of three stores from `I`, one a digit, and the digits make up the value. -/
theorem decimalDigitsStored : Obligations.DecimalDigitsStored := by
  intro x s
  obtain ⟨hhundreds, htens, hones⟩ := s.readByte_storeDigits_toNat s.i (s.reg x)
  refine ⟨_, rfl, hhundreds, htens, hones, ?_, fun a h0 h1 h2 => ?_, storeBytes_endTick_frame s s.i _⟩
  · simp only [State.endTick_readByte, hhundreds, htens, hones]
    omega
  · refine s.readByte_storeBytes_other s.i (bcdDigits (s.reg x)) (by simp [bcdDigits]) a fun k hk => ?_
    match k, hk with
    | 0, _ => simpa using h0
    | 1, _ => exact h1
    | 2, _ => exact h2

/-! The block store and load. -/

/-- Settles O30: the cells stored to are `I + r` for the registers `r` up to `x`. -/
theorem registersStored : Obligations.RegistersStored := by
  refine fun x s => ⟨_, rfl, fun r hr => s.readByte_storeRegs hr, fun a ha => ?_, storeBytes_endTick_frame s s.i _⟩
  refine s.readByte_storeBytes_other s.i (s.regsUpTo x) (by rw [State.regsUpTo_length]; omega) a fun k hk => ?_
  rw [State.regsUpTo_length] at hk
  exact ha ⟨k, by omega⟩ (Nat.le_of_lt_succ hk)

/-- An instruction that writes a run of registers and ends with `IncrementPC`. -/
theorem setRegsFrom_endTick_frame (s : State) (k : Nat) (bs : List Byte) :
    AdvancedTwo s ((s.setRegsFrom k bs).endTick .incrementPC) ∧ KeptButRegs s ((s.setRegsFrom k bs).endTick .incrementPC) ∧
      ((s.setRegsFrom k bs).endTick .incrementPC).draws = s.draws := by
  refine ⟨⟨?_, rfl⟩, ⟨?_, ⟨?_, ?_⟩, ⟨?_, ?_⟩, ?_, sameMemory_of_mem_eq ?_ ?_, ⟨?_, ?_⟩, ⟨?_, ?_, ?_⟩, ?_⟩, ?_⟩ <;> simp

/-- Settles O31: `State.reg_loadRegs` gives every register. -/
theorem registersLoaded : Obligations.RegistersLoaded := fun x s =>
  ⟨_, rfl, fun r hr => (s.reg_loadRegs x r).trans (if_pos hr), fun r hr => (s.reg_loadRegs x r).trans (if_neg hr),
    setRegsFrom_endTick_frame s 0 _⟩

/-- Settles O32: the byte Fx65 loads into `V[r]` is the one Fx55 stored from it. -/
theorem storeThenLoadRestores : Obligations.StoreThenLoadRestores := by
  intro x s t u hexec hmem hcfg hi
  cases hexec
  refine ⟨_, rfl, fun r => (u.reg_loadRegs x r).trans (ite_congr rfl (fun hr => ?_) fun _ => rfl)⟩
  have hbase : u.i = s.i := hi.trans (s.storeBytes_i s.i _)
  rw [State.readByte_congr hcfg hmem, hbase]
  exact s.readByte_storeRegs hr

end Sys2Proof.Machine
end

section
/-! PROOF. The tick driver and the key and timer events (60_exceptions.md R203 to R209, R216, R217, R221, R222). -/

namespace Sys2Proof.Machine

/-! What a tick meets (R207 to R209). -/

theorem step_of_tick {s : State} (he : s.nextEvent = .tick) : step s = tick s.takeEvent := by
  rw [step, he, applyEvent]

/-- With nothing scheduled there is no event to take off. -/
theorem State.takeEvent_of_pending_nil {s : State} (hp : s.pending = []) : s.takeEvent = s := by
  rw [State.takeEvent, hp, List.tail_nil, ← hp]

theorem tick_of_waiting {s : State} (hw : s.waiting = true) : tick s = .next (s.endTick .waitForKeyboard) := if_pos hw

theorem tick_of_not_waiting {s : State} (hw : s.waiting = false) : tick s = runDecoded s.fetched s :=
  if_neg (Bool.eq_false_iff.mp hw)

/-- A tick that meets a wait again moves nothing: the driver adds 0 to `PC` and `WaitForKeyboard` is no fault (R208). -/
theorem State.endTick_waitForKeyboard (s : State) : s.endTick .waitForKeyboard = { s with status := .waitForKeyboard } := by
  simp [State.endTick, Signal.pcAdvance, Signal.isFault]

/-- A tick that ends in `NotImplemented` passes the word: the driver adds 2 to `PC` and the signal is a fault (R208). -/
theorem State.endTick_notImplemented (s : State) :
    s.endTick .notImplemented = { s with pc := s.pc + 2, status := .notImplemented, faultMark := true } := by
  simp [State.endTick, Signal.pcAdvance, Signal.isFault]

/-- Taking the event off the schedule moves neither `PC` nor memory, so a tick runs what the state before it fetches. -/
theorem step_eq_runDecoded {s : State} (he : s.nextEvent = .tick) (hw : s.waiting = false) :
    step s = runDecoded s.fetched s.takeEvent :=
  (step_of_tick he).trans (tick_of_not_waiting hw)

/-- Settles O38: the bytes at `PC` choose the meaning, by `step_eq_runDecoded`. -/
theorem stepRunsDecodedInstruction : Obligations.StepRunsDecodedInstruction := by
  intro s i he hw hdecoded
  have hstep : step s = exec i s.takeEvent := by
    rw [step_eq_runDecoded he hw, State.fetched, hdecoded, runDecoded]
  exact ⟨hstep, fun hp => by rw [hstep, State.takeEvent_of_pending_nil hp]⟩

/-- Settles O39: the meaning of an unimplemented word is the end of the tick in `NotImplemented`. -/
theorem unimplementedWordIsPassed : Obligations.UnimplementedWordIsPassed := by
  intro s u he hw hfetched
  have hstep : step s = .next (s.takeEvent.endTick .notImplemented) := by
    rw [step_eq_runDecoded he hw, hfetched, runDecoded, unimplementedWord, finish_eq]
  rw [State.endTick_notImplemented] at hstep
  exact ⟨hstep, fun hp => by rw [hstep, State.takeEvent_of_pending_nil hp]⟩

/-- Settles O40: nothing is fetched, and the report is all that changes. -/
theorem waitingTickChangesNothing : Obligations.WaitingTickChangesNothing := by
  intro s hw
  rw [tick_of_waiting hw, State.endTick_waitForKeyboard]

/-! The key events (R216, R217). -/

theorem keyPress_of_waiting (k : Key) {s : State} (hw : s.waiting = true) : keyPress k s = (s.setKey k true).resume k :=
  if_pos hw

theorem keyPress_of_not_waiting (k : Key) {s : State} (hw : s.waiting = false) : keyPress k s = s.setKey k true :=
  if_neg (Bool.eq_false_iff.mp hw)

theorem State.reg_resume (s : State) (k : Key) (r : RegIdx) :
    (s.resume k).reg r = if r = s.waitReg then BitVec.ofNat 8 k.val else s.reg r :=
  s.reg_setReg s.waitReg r (BitVec.ofNat 8 k.val)

/-- A key press puts its key down in either driver state. -/
theorem keyDown_keyPress (k j : Key) (s : State) : (keyPress k s).keyDown j = (s.keyDown j || decide (j = k)) := by
  have hset : (s.setKey k true).keyDown j = (s.keyDown j || decide (j = k)) := by
    by_cases hj : j = k <;> simp [State.keyDown_setKey, hj]
  cases hw : s.waiting with
  | true => rwa [keyPress_of_waiting k hw]
  | false => rwa [keyPress_of_not_waiting k hw]

theorem keyDown_keyRelease (k j : Key) (s : State) : (keyRelease k s).keyDown j = (s.keyDown j && !decide (j = k)) := by
  rw [keyRelease]
  by_cases hj : j = k <;> simp [State.keyDown_setKey, hj]

/-- The number of a key fits a byte, so the pending register holds it whole. -/
theorem reg_keyPress_of_waiting (k : Key) {s : State} (hw : s.waiting = true) (r : RegIdx) :
    ((keyPress k s).reg r).toNat = if r = s.waitReg then k.val else (s.reg r).toNat := by
  have hbyte : (BitVec.ofNat 8 k.val).toNat = k.val := by rw [BitVec.toNat_ofNat]; omega
  rw [keyPress_of_waiting k hw, State.reg_resume, apply_ite BitVec.toNat, hbyte]
  rfl

/-- A key press writes the keys, and the registers, the latch and `PC` when it resolves a wait, but nothing else. -/
theorem keyPress_frame (k : Key) (s : State) :
    { keyPress k s with keys := s.keys, v := s.v, waiting := s.waiting, pc := s.pc } = s := by
  unfold keyPress
  split <;> rfl

/-- Settles O41: a wait is resolved by `State.resume`; with no wait only the key is written. -/
theorem keyPressResolvesWait : Obligations.KeyPressResolvesWait := by
  refine fun k s => ⟨keyPress k s, rfl, fun j => keyDown_keyPress k j s, fun hw => ?_, fun hw => ?_, keyPress_frame k s⟩
  · refine ⟨reg_keyPress_of_waiting k hw, keyPress_waiting k s, ?_⟩
    rw [keyPress_of_waiting k hw, State.resume_pc, State.setKey_pc]
  · rw [keyPress_of_not_waiting k hw]
    exact ⟨fun _ _ => rfl, hw, rfl⟩

/-- Settles O42: a release writes one key, and the keys are all it writes. -/
theorem keyReleaseChangesItsKeyOnly : Obligations.KeyReleaseChangesItsKeyOnly :=
  fun k s => ⟨keyRelease k s, rfl, fun j => keyDown_keyRelease k j s, rfl⟩

/-! The timer event (R221, R222). -/

/-- Decay is subtraction of 1 as a number, at 0 too. -/
theorem decay_toNat (b : Byte) : (decay b).toNat = b.toNat - 1 := by
  unfold decay
  split
  · next hzero => rw [hzero]; rfl
  · next hne => bv_omega

theorem decay_iterate_toNat (n : Nat) (b : Byte) : (decay^[n] b).toNat = b.toNat - n := by
  induction n with
  | zero => rfl
  | succ n ih => rw [Function.iterate_succ_apply', decay_toNat, ih, Nat.sub_sub]

/-- A run of timer events is a run of decays on each timer. -/
theorem timerTick_iterate (n : Nat) (s : State) :
    timerTick^[n] s = { s with dt := decay^[n] s.dt, st := decay^[n] s.st } := by
  induction n with
  | zero => rfl
  | succ n ih => simp only [Function.iterate_succ_apply', ih, timerTick]

/-- Settles O43, by induction on the number of events: for the state in `timerTick_iterate`, for a timer in
`decay_iterate_toNat`. -/
theorem timerTicksSaturate : Obligations.TimerTicksSaturate := by
  intro n s
  rw [timerTick_iterate]
  exact ⟨decay_iterate_toNat n s.dt, decay_iterate_toNat n s.st, rfl⟩

end Sys2Proof.Machine
end

section
/-! PROOF. The `Reset` event on `PC`, `SP`, the latch and the configuration (70_reset_and_hazards.md R240, R241). -/

namespace Sys2Proof.Machine

/-- Settles O47: `PC`, `SP` and `WAIT` are among the reset values, and the event keeps the configuration. -/
theorem resetSetsPcAndSp : Obligations.ResetSetsPcAndSp := by
  intro s
  obtain ⟨hpc, hsp, _, _, _, _, _, _, hwait, _⟩ := resetEvent_holdsResetValues s
  exact ⟨resetEvent s, rfl, hpc, hsp, hwait, resetEvent_cfg s⟩

end Sys2Proof.Machine
end
